-- ==== Sys2Proof/Word.lean ====
section
/-!
DEFINITION. The words of the machine: bytes, 16-bit words, register numbers and time
(spec/00_scope.md R9 to R11, spec/10_state.md R21, R24).
-/
namespace Sys2Proof

/-- One byte of Memory, and the contents of one general register (R21). -/
abbrev Byte := BitVec 8

/-- An instruction word, the program counter, the index register, a stack entry (R24, R25, R26). -/
abbrev Word := BitVec 16

/-- The number of a general register: "register index `∈[0,15]`" (R21). -/
abbrev Reg := Fin 16

/-- The register that some instructions also write as a flag (R23). -/
abbrev VF : Reg := 15

/-- Time is a rational number of seconds, exact (R11). -/
abbrev Time := Rat

end Sys2Proof
end

