-- ==== Sys2Proof/Syntax.lean ====
section
/-!
DEFINITION. The instructions: one constructor for each of the 34 rows of spec/opcode_table.json, in the
table's order (spec/30_encoding.md R100). Operands are those of R92: register numbers `x`, `y`; the
immediate byte `kk`; the immediate address `nnn`, zero-extended to 16 bits (R94); the sprite height `n`.
-/
namespace Sys2Proof

/-- The base opcode set (R100). -/
inductive Instr where
  /-- `00E0` CLS: clear the display (R217). -/
  | cls
  /-- `00EE` RET: return from a subroutine (R150). -/
  | ret
  /-- `1NNN` JP nnn: jump; halt if it jumps to itself (R151). -/
  | jp (nnn : Word)
  /-- `2NNN` CALL nnn: call a subroutine (R152). -/
  | call (nnn : Word)
  /-- `3XKK` SE Vx, kk: skip if equal to the immediate (R160). -/
  | seImm (x : Reg) (kk : Byte)
  /-- `4XKK` SNE Vx, kk: skip if not equal to the immediate (R161). -/
  | sneImm (x : Reg) (kk : Byte)
  /-- `5XY0` SE Vx, Vy: skip if the registers are equal (R162). -/
  | seReg (x y : Reg)
  /-- `6XKK` LD Vx, kk: load immediate (R170). -/
  | ldImm (x : Reg) (kk : Byte)
  /-- `7XKK` ADD Vx, kk: add immediate, no flag (R171). -/
  | addImm (x : Reg) (kk : Byte)
  /-- `8XY0` LD Vx, Vy: move (R172). -/
  | ldReg (x y : Reg)
  /-- `8XY1` OR Vx, Vy (R173). -/
  | orReg (x y : Reg)
  /-- `8XY2` AND Vx, Vy (R174). -/
  | andReg (x y : Reg)
  /-- `8XY3` XOR Vx, Vy (R175). -/
  | xorReg (x y : Reg)
  /-- `8XY4` ADD Vx, Vy: carry into VF (R176). -/
  | addReg (x y : Reg)
  /-- `8XY5` SUB Vx, Vy: NOT-borrow into VF (R177). -/
  | subReg (x y : Reg)
  /-- `8XY6` SHR Vx, Vy: shift `V[y]` right (R179). -/
  | shrReg (x y : Reg)
  /-- `8XY7` SUBN Vx, Vy: reverse subtract (R178). -/
  | subnReg (x y : Reg)
  /-- `8XYE` SHL Vx, Vy: shift `V[y]` left (R181). -/
  | shlReg (x y : Reg)
  /-- `9XY0` SNE Vx, Vy: skip if the registers differ (R163). -/
  | sneReg (x y : Reg)
  /-- `ANNN` LD I, nnn: load the index register (R190). -/
  | ldI (nnn : Word)
  /-- `BNNN` JP V0, nnn: jump to nnn plus V0 (R153). -/
  | jpV0 (nnn : Word)
  /-- `CXKK` RND Vx, kk: random byte under a mask (R182). -/
  | rnd (x : Reg) (kk : Byte)
  /-- `DXYN` DRW Vx, Vy, n: draw a sprite of n rows, gated by vsync (R218). -/
  | drw (x y : Reg) (n : Nat)
  /-- `EX9E` SKP Vx: skip if the key is down (R235). -/
  | skp (x : Reg)
  /-- `EXA1` SKNP Vx: skip if the key is up (R236). -/
  | sknp (x : Reg)
  /-- `FX07` LD Vx, DT: read the delay timer (R250). -/
  | ldVxDt (x : Reg)
  /-- `FX0A` LD Vx, K: wait for a press and its release (R237). -/
  | ldVxK (x : Reg)
  /-- `FX15` LD DT, Vx: load the delay timer (R251). -/
  | ldDtVx (x : Reg)
  /-- `FX18` LD ST, Vx: load the sound timer (R252). -/
  | ldStVx (x : Reg)
  /-- `FX1E` ADD I, Vx: add to the index register (R191). -/
  | addI (x : Reg)
  /-- `FX29` LD F, Vx: address of a font glyph (R194). -/
  | ldF (x : Reg)
  /-- `FX33` LD B, Vx: three decimal digits to memory (R195). -/
  | ldB (x : Reg)
  /-- `FX55` LD [I], Vx: store V0 to Vx (R196). -/
  | storeRegs (x : Reg)
  /-- `FX65` LD Vx, [I]: load V0 to Vx (R197). -/
  | loadRegs (x : Reg)
deriving DecidableEq, Repr

end Sys2Proof
end

