-- ==== Sys2Proof/WellFormed.lean ====
section
/-!
DEFINITION. Which instruction terms an encoding exists for. Register numbers and immediate bytes fit
their fields by type; what is checked is that an address `nnn` fits its 12 bits and a sprite height `n`
its 4 bits (spec/30_encoding.md R92).
-/
namespace Sys2Proof

/-- `nnn` is the value of a 12-bit field (R92). -/
abbrev fitsNNN (nnn : Word) : Bool := decide (nnn.toNat < 4096)

/-- `n` is the value of a 4-bit field (R92). -/
abbrev fitsN (n : Nat) : Bool := decide (n < 16)

/-- Every operand fits the field that encodes it. -/
def Instr.wellFormed : Instr → Bool
  | .cls | .ret => true
  | .jp nnn | .call nnn | .ldI nnn | .jpV0 nnn => fitsNNN nnn
  | .seImm _ _ | .sneImm _ _ | .ldImm _ _ | .addImm _ _ | .rnd _ _ => true
  | .seReg _ _ | .ldReg _ _ | .orReg _ _ | .andReg _ _ | .xorReg _ _ | .addReg _ _
  | .subReg _ _ | .shrReg _ _ | .subnReg _ _ | .shlReg _ _ | .sneReg _ _ => true
  | .drw _ _ n => fitsN n
  | .skp _ | .sknp _ | .ldVxDt _ | .ldVxK _ | .ldDtVx _ | .ldStVx _ | .addI _ | .ldF _
  | .ldB _ | .storeRegs _ | .loadRegs _ => true

end Sys2Proof
end

