-- ==== Sys2Proof/Decode.lean ====
section
/-!
DEFINITION. The decoder, total on every word and every byte string, rejecting by name; the encoder,
written from the same layouts; and the opcode table as masks and matches (spec/30_encoding.md).
-/
namespace Sys2Proof

/-! ### Fields of an instruction word (R91, R92) -/

/-- The nibble `n3 = w[15:12]`. -/
def nibble3 (w : Word) : Nat := (w.extractLsb' 12 4).toNat

/-- The nibble `n0 = w[3:0]`. -/
def nibble0 (w : Word) : Nat := (w.extractLsb' 0 4).toNat

/-- The field `X = w[11:8]`. -/
def fieldX (w : Word) : Reg := (w.extractLsb' 8 4).toFin

/-- The field `Y = w[7:4]`. -/
def fieldY (w : Word) : Reg := (w.extractLsb' 4 4).toFin

/-- The field `N = w[3:0]`, a count. -/
def fieldN (w : Word) : Nat := (w.extractLsb' 0 4).toNat

/-- The field `KK = w[7:0]`. -/
def fieldKK (w : Word) : Byte := w.extractLsb' 0 8

/-- The field `NNN = w[11:0]`, zero-extended to 16 bits (R94). -/
def fieldNNN (w : Word) : Word := (w.extractLsb' 0 12).setWidth 16

/-! ### Decoding (R100, R101, R103) -/

/-- Why a byte string is not an instruction. -/
inductive DecodeReject where
  /-- Raised by `decode`: the word matches no row of the opcode map (R103). Safe: the step raises
  `UnknownOpcode(w)`. -/
  | unknownOpcode (w : Word)
  /-- Raised by `decodeBytes`: fewer than the two bytes of an instruction (R90) are left. Safe: a
  step never decodes a string this short, its fetch faults first. -/
  | truncated
deriving DecidableEq, Repr

/-- Dispatch in the group `n3 = 0`: the whole word (R101). -/
def decode0 (w : Word) : Except DecodeReject Instr :=
  if w = 0x00E0 then .ok .cls
  else if w = 0x00EE then .ok .ret
  else .error (.unknownOpcode w)

/-- Dispatch in the group `n3 = 8`: the nibble `n0` (R102). -/
def decode8 (w : Word) : Except DecodeReject Instr :=
  match nibble0 w with
  | 0x0 => .ok (.ldReg (fieldX w) (fieldY w))
  | 0x1 => .ok (.orReg (fieldX w) (fieldY w))
  | 0x2 => .ok (.andReg (fieldX w) (fieldY w))
  | 0x3 => .ok (.xorReg (fieldX w) (fieldY w))
  | 0x4 => .ok (.addReg (fieldX w) (fieldY w))
  | 0x5 => .ok (.subReg (fieldX w) (fieldY w))
  | 0x6 => .ok (.shrReg (fieldX w) (fieldY w))
  | 0x7 => .ok (.subnReg (fieldX w) (fieldY w))
  | 0xE => .ok (.shlReg (fieldX w) (fieldY w))
  | _ => .error (.unknownOpcode w)

/-- Dispatch in the group `n3 = E`: the byte `w[7:0]` (R101). -/
def decodeE (w : Word) : Except DecodeReject Instr :=
  match (fieldKK w).toNat with
  | 0x9E => .ok (.skp (fieldX w))
  | 0xA1 => .ok (.sknp (fieldX w))
  | _ => .error (.unknownOpcode w)

/-- Dispatch in the group `n3 = F`: the byte `w[7:0]` (R101). -/
def decodeF (w : Word) : Except DecodeReject Instr :=
  match (fieldKK w).toNat with
  | 0x07 => .ok (.ldVxDt (fieldX w))
  | 0x0A => .ok (.ldVxK (fieldX w))
  | 0x15 => .ok (.ldDtVx (fieldX w))
  | 0x18 => .ok (.ldStVx (fieldX w))
  | 0x1E => .ok (.addI (fieldX w))
  | 0x29 => .ok (.ldF (fieldX w))
  | 0x33 => .ok (.ldB (fieldX w))
  | 0x55 => .ok (.storeRegs (fieldX w))
  | 0x65 => .ok (.loadRegs (fieldX w))
  | _ => .error (.unknownOpcode w)

/-- A group whose rows fix the last nibble to 0 (`5XY0`, `9XY0`; decision D32). -/
def decodeXY0 (i : Reg → Reg → Instr) (w : Word) : Except DecodeReject Instr :=
  match nibble0 w with
  | 0x0 => .ok (i (fieldX w) (fieldY w))
  | _ => .error (.unknownOpcode w)

/-- The instruction of a word, or its rejection: dispatch by `n3` first (R101). It reads no state but
the word (R125). -/
def decode (w : Word) : Except DecodeReject Instr :=
  match nibble3 w with
  | 0x0 => decode0 w
  | 0x1 => .ok (.jp (fieldNNN w))
  | 0x2 => .ok (.call (fieldNNN w))
  | 0x3 => .ok (.seImm (fieldX w) (fieldKK w))
  | 0x4 => .ok (.sneImm (fieldX w) (fieldKK w))
  | 0x5 => decodeXY0 .seReg w
  | 0x6 => .ok (.ldImm (fieldX w) (fieldKK w))
  | 0x7 => .ok (.addImm (fieldX w) (fieldKK w))
  | 0x8 => decode8 w
  | 0x9 => decodeXY0 .sneReg w
  | 0xA => .ok (.ldI (fieldNNN w))
  | 0xB => .ok (.jpV0 (fieldNNN w))
  | 0xC => .ok (.rnd (fieldX w) (fieldKK w))
  | 0xD => .ok (.drw (fieldX w) (fieldY w) (fieldN w))
  | 0xE => decodeE w
  | _ => decodeF w

/-- The big-endian word of two bytes, the first at the lower address (R64, R91). -/
def wordOfBytes (hi lo : Byte) : Word := hi ++ lo

/-- The first instruction of a byte string, and the bytes after it (R90). -/
def decodeBytes : List Byte → Except DecodeReject (Instr × List Byte)
  | hi :: lo :: rest => (decode (wordOfBytes hi lo)).map fun i => (i, rest)
  | _ => .error .truncated

/-- The two bytes of a word as the hardware stores them, high byte first (R90). -/
def bytesOfWord (w : Word) : List Byte := [w.extractLsb' 8 8, w.extractLsb' 0 8]

/-- The word that spec/opcode_table.json numbers `w`, all bits above `nbits` zero. Every instruction is
one 16-bit word (R90). -/
def tableWord (nbits w : Nat) : Word := BitVec.ofNat 16 (w % 2 ^ nbits)

/-- What the decoder reads from an instruction of the opcode table, none where it refuses. -/
def decodeTableWord (nbits w : Nat) : Option Instr :=
  match decodeBytes (bytesOfWord (tableWord nbits w)) with
  | .ok (i, _) => some i
  | .error _ => none

/-! ### Encoding: the six formats (R93) -/

/-- Format `A`: `n3 NNN`. -/
def formatA (n3 : Nat) (nnn : Word) : Word := BitVec.ofNat 16 (n3 * 4096 + nnn.toNat)

/-- Format `XK`: `n3 X KK`. -/
def formatXK (n3 : Nat) (x : Reg) (kk : Byte) : Word :=
  BitVec.ofNat 16 (n3 * 4096 + x.val * 256 + kk.toNat)

/-- Formats `XY` and `XYN`: `n3 X Y n0`. -/
def formatXYN (n3 : Nat) (x y : Reg) (n0 : Nat) : Word :=
  BitVec.ofNat 16 (n3 * 4096 + x.val * 256 + y.val * 16 + n0)

/-- Format `XF`: `n3 X n1 n0`, the last two nibbles given as a byte. -/
def formatXF (n3 : Nat) (x : Reg) (low : Nat) : Word :=
  BitVec.ofNat 16 (n3 * 4096 + x.val * 256 + low)

/-- The word of a well-formed instruction (R93, R100). -/
def encode : Instr → Word
  | .cls => 0x00E0
  | .ret => 0x00EE
  | .jp nnn => formatA 0x1 nnn
  | .call nnn => formatA 0x2 nnn
  | .seImm x kk => formatXK 0x3 x kk
  | .sneImm x kk => formatXK 0x4 x kk
  | .seReg x y => formatXYN 0x5 x y 0x0
  | .ldImm x kk => formatXK 0x6 x kk
  | .addImm x kk => formatXK 0x7 x kk
  | .ldReg x y => formatXYN 0x8 x y 0x0
  | .orReg x y => formatXYN 0x8 x y 0x1
  | .andReg x y => formatXYN 0x8 x y 0x2
  | .xorReg x y => formatXYN 0x8 x y 0x3
  | .addReg x y => formatXYN 0x8 x y 0x4
  | .subReg x y => formatXYN 0x8 x y 0x5
  | .shrReg x y => formatXYN 0x8 x y 0x6
  | .subnReg x y => formatXYN 0x8 x y 0x7
  | .shlReg x y => formatXYN 0x8 x y 0xE
  | .sneReg x y => formatXYN 0x9 x y 0x0
  | .ldI nnn => formatA 0xA nnn
  | .jpV0 nnn => formatA 0xB nnn
  | .rnd x kk => formatXK 0xC x kk
  | .drw x y n => formatXYN 0xD x y n
  | .skp x => formatXF 0xE x 0x9E
  | .sknp x => formatXF 0xE x 0xA1
  | .ldVxDt x => formatXF 0xF x 0x07
  | .ldVxK x => formatXF 0xF x 0x0A
  | .ldDtVx x => formatXF 0xF x 0x15
  | .ldStVx x => formatXF 0xF x 0x18
  | .addI x => formatXF 0xF x 0x1E
  | .ldF x => formatXF 0xF x 0x29
  | .ldB x => formatXF 0xF x 0x33
  | .storeRegs x => formatXF 0xF x 0x55
  | .loadRegs x => formatXF 0xF x 0x65

/-! ### The opcode map as masks and matches (R100) -/

/-- One row of the opcode map: "A word `w` is the instruction of a row when `w & mask = match`". -/
structure OpcodeRow where
  /-- The pattern, the normative name of the row (R106). -/
  pattern : String
  mask : Word
  code : Word
deriving DecidableEq, Repr

/-- The word is an instruction of this row (R100). -/
def OpcodeRow.matchesWord (r : OpcodeRow) (w : Word) : Bool := (w &&& r.mask) == r.code

/-- The row of the opcode map that an instruction belongs to (R100). -/
def Instr.row : Instr → OpcodeRow
  | .cls => ⟨"00E0", 0xFFFF, 0x00E0⟩
  | .ret => ⟨"00EE", 0xFFFF, 0x00EE⟩
  | .jp _ => ⟨"1NNN", 0xF000, 0x1000⟩
  | .call _ => ⟨"2NNN", 0xF000, 0x2000⟩
  | .seImm _ _ => ⟨"3XKK", 0xF000, 0x3000⟩
  | .sneImm _ _ => ⟨"4XKK", 0xF000, 0x4000⟩
  | .seReg _ _ => ⟨"5XY0", 0xF00F, 0x5000⟩
  | .ldImm _ _ => ⟨"6XKK", 0xF000, 0x6000⟩
  | .addImm _ _ => ⟨"7XKK", 0xF000, 0x7000⟩
  | .ldReg _ _ => ⟨"8XY0", 0xF00F, 0x8000⟩
  | .orReg _ _ => ⟨"8XY1", 0xF00F, 0x8001⟩
  | .andReg _ _ => ⟨"8XY2", 0xF00F, 0x8002⟩
  | .xorReg _ _ => ⟨"8XY3", 0xF00F, 0x8003⟩
  | .addReg _ _ => ⟨"8XY4", 0xF00F, 0x8004⟩
  | .subReg _ _ => ⟨"8XY5", 0xF00F, 0x8005⟩
  | .shrReg _ _ => ⟨"8XY6", 0xF00F, 0x8006⟩
  | .subnReg _ _ => ⟨"8XY7", 0xF00F, 0x8007⟩
  | .shlReg _ _ => ⟨"8XYE", 0xF00F, 0x800E⟩
  | .sneReg _ _ => ⟨"9XY0", 0xF00F, 0x9000⟩
  | .ldI _ => ⟨"ANNN", 0xF000, 0xA000⟩
  | .jpV0 _ => ⟨"BNNN", 0xF000, 0xB000⟩
  | .rnd _ _ => ⟨"CXKK", 0xF000, 0xC000⟩
  | .drw _ _ _ => ⟨"DXYN", 0xF000, 0xD000⟩
  | .skp _ => ⟨"EX9E", 0xF0FF, 0xE09E⟩
  | .sknp _ => ⟨"EXA1", 0xF0FF, 0xE0A1⟩
  | .ldVxDt _ => ⟨"FX07", 0xF0FF, 0xF007⟩
  | .ldVxK _ => ⟨"FX0A", 0xF0FF, 0xF00A⟩
  | .ldDtVx _ => ⟨"FX15", 0xF0FF, 0xF015⟩
  | .ldStVx _ => ⟨"FX18", 0xF0FF, 0xF018⟩
  | .addI _ => ⟨"FX1E", 0xF0FF, 0xF01E⟩
  | .ldF _ => ⟨"FX29", 0xF0FF, 0xF029⟩
  | .ldB _ => ⟨"FX33", 0xF0FF, 0xF033⟩
  | .storeRegs _ => ⟨"FX55", 0xF0FF, 0xF055⟩
  | .loadRegs _ => ⟨"FX65", 0xF0FF, 0xF065⟩

/-- One instruction of each row, in the table's order. -/
def rowSamples : List Instr :=
  [.cls, .ret, .jp 0, .call 0, .seImm 0 0, .sneImm 0 0, .seReg 0 0, .ldImm 0 0, .addImm 0 0] ++
  [.ldReg 0 0, .orReg 0 0, .andReg 0 0, .xorReg 0 0, .addReg 0 0, .subReg 0 0, .shrReg 0 0] ++
  [.subnReg 0 0, .shlReg 0 0, .sneReg 0 0, .ldI 0, .jpV0 0, .rnd 0 0, .drw 0 0 0, .skp 0] ++
  [.sknp 0, .ldVxDt 0, .ldVxK 0, .ldDtVx 0, .ldStVx 0, .addI 0, .ldF 0, .ldB 0] ++
  [.storeRegs 0, .loadRegs 0]

/-- The 34 rows of the opcode map (R100). -/
def opcodeTable : List OpcodeRow := rowSamples.map Instr.row

end Sys2Proof
end

