-- ==== Sys2Proof/Config.lean ====
section
/-!
DEFINITION. What is fixed when the machine is constructed (spec/00_scope.md R6, R7), and the values
the spec leaves open: opaque constants, of which no proof can see a value.
-/
namespace Sys2Proof

/-- The configuration record given at construction and never changed by any rule (R6, R7). -/
structure Config where
  /-- `MEM_SIZE`, the number of bytes of Memory. -/
  memSize : Nat
  /-- `START`, where the ROM is copied and where `pc` starts. -/
  start : Nat
  /-- `WIDTH`, the display width in pixels. -/
  width : Nat
  /-- `HEIGHT`, the display height in pixels. -/
  height : Nat
  /-- `INSTR_RATE` where the record chooses a value; none stands for the rate the spec leaves open, so that a
  state can be written out and compared (log entry 3). -/
  chosenRate : Option Rat
  /-- `VSYNC_RATE`, the rate of the vsync countdown in Hz. -/
  vsyncRate : Rat
deriving DecidableEq, Repr

namespace Config

/-- `FONT_BASE`: FX29 adds no base, so the font starts at address 0 (R7, R68, R194). -/
abbrev fontBase : Nat := 0

/-- 16 glyphs of 5 bytes (R68). -/
abbrev fontSize : Nat := 80

/-- `TIMER_RATE`, fixed, of the delay and sound timers (R7). -/
abbrev timerRate : Rat := 60

/-- `VSYNC_RELOAD`, loaded into the vsync timer by a draw that executes (R7, decision D14). -/
abbrev vsyncReload : Byte := 1

/-- FREE VALUE: with `openRateDen`, the instruction rate that the spec leaves open (R7: OPEN,
decision D5). Nothing is known of it. Log entry 3. -/
opaque openRateNum : Nat

/-- FREE VALUE: see `openRateNum`. -/
opaque openRateDen : Nat

/-- The open `INSTR_RATE`: a positive rational, and every positive rational is of this form. -/
def openInstrRate : Rat := ((openRateNum : Rat) + 1) / ((openRateDen : Rat) + 1)

/-- `INSTR_RATE`, the instruction cadence in Hz (R7). -/
def instrRate (c : Config) : Rat := c.chosenRate.getD openInstrRate

/-- The constraints on the parameters (R7). A record outside them defines no machine (R301). -/
abbrev Valid (c : Config) : Prop :=
  2 ≤ c.memSize ∧ c.memSize ≤ 65536 ∧ fontBase + fontSize ≤ c.memSize ∧
  c.start + 1 < c.memSize ∧
  0 < c.width ∧ c.width % 8 = 0 ∧ 0 < c.height ∧
  0 < c.instrRate ∧ 0 < c.vsyncRate

/-- FREE VALUE: the `n`-th random byte that CXKK draws, "any value 0 to 255, under no law" (R183).
Log entry 6. -/
opaque randByte : Nat → Byte

/-- FREE VALUE: what `Pressed(k)` would answer for `k > 15`, where the spec does not define it (R232).
No run asks for it (R238). Log entry 8. -/
opaque pressedBeyond : Nat → Bool

/-- The values the spec gives the parameters (R7), with the open instruction rate. -/
def standard : Config :=
  { memSize := 4096, start := 0x200, width := 64, height := 32
    chosenRate := none, vsyncRate := 60 }

end Config
end Sys2Proof
end

