-- ==== Sys2Proof/Machine/State.lean ====
section
/-!
DEFINITION. The state of the machine as plain data (spec/10_state.md), the reasons a step can stop, and
the state right after reset (R36, R300).
-/
namespace Sys2Proof.Machine

/-- The runtime faults (spec/60_exceptions.md R260). A fault is TAKEN: it is recorded in `runState` and
the step that raises it answers a next state (R262), so no step ends in `Host.Outcome.fault`. -/
inductive Fault where
  /-- Raised by the fetch, DXYN, FX33, FX55 and FX65 on an access outside Memory; `addr` is the
  offending address (R61 to R64). Safe: the spec's own fault. -/
  | outOfBounds (addr : Nat)
  /-- Raised by 2NNN when 16 entries are in use (R152). Safe: the spec's own fault. -/
  | stackOverflow
  /-- Raised by 00EE when the stack is empty (R150). Safe: the spec's own fault. -/
  | stackUnderflow
  /-- Raised by the step when the fetched word matches no row of the opcode map (R103, R125). Safe: the
  spec's own fault. -/
  | unknownOpcode (w : Word)
  /-- Raised by EX9E and EXA1 on a register above 15, and by the host's `press` and `release` on an id
  above 15 (R231, R234). Safe: the spec's own fault. -/
  | invalidKey (id : Nat)
deriving DecidableEq, Repr

/-- What the model gives no meaning to. No step and no instruction answers any of these. -/
inductive Refusal where
  /-- Answered by an arm of `exec` whose instruction has no meaning yet. Safe. -/
  | notModelled (mnemonic : String)
  /-- Answered by `construct` on a configuration outside the constraints of R7: "defines no machine"
  (R301). Safe. -/
  | badConfig
  /-- Answered by `update` on a negative `delta`, which the spec refuses (R287). Safe. -/
  | negativeDelta
  /-- Answered by `load` after the first `update`, which the spec refuses (R285, R305). Safe. -/
  | lateLoad
deriving DecidableEq, Repr

/-- The CPU's run states (spec/40_step_engine.md R120). -/
inductive RunState where
  | running
  | haltedOnInfiniteLoop
  | haltedOnFault (f : Fault)
deriving DecidableEq, Repr

/-- A Timer record without its configured rate (R28): the seconds received and not yet used up, and the
count. -/
structure Timer where
  acc : Time
  value : Byte
deriving DecidableEq, Repr

/-- Memory as the cells whose byte differs from what an unlisted address reads as (`unlistedByte`), in
strictly rising order of address. -/
abbrev Memory := List Host.Cell

/-- The whole state of the block (R20). -/
structure State where
  /-- The configuration record, fixed at construction (R6, R20). -/
  cfg : Config
  /-- `bytes` (R30). -/
  mem : Memory
  /-- V0 to VF (R21). -/
  regs : Vector Byte 16
  /-- The index register `I` (R25). -/
  index : Word
  /-- The program counter (R24). -/
  pc : Word
  /-- The stack entries (R26). -/
  stack : Vector Word 16
  /-- The number of stack entries in use, 0 to 16 (R26). -/
  sp : Fin 17
  /-- The run state (R27). -/
  runState : RunState
  /-- The delay timer; its value is `DT` (R29). -/
  delayTimer : Timer
  /-- The sound timer; its value is `ST` (R29). -/
  soundTimer : Timer
  /-- The vsync timer; its value is `VS` (R29). -/
  vsyncTimer : Timer
  /-- The instruction timer; its value is unused (R28, R29). -/
  instrTimer : Timer
  /-- The packed bytes of the bit grid (R31, R210). -/
  bitgrid : List Byte
  /-- The frame-dirty flag (R31, R215). -/
  changed : Bool
  /-- `pressed_bitmap`: bit k is 1 while key k is down (R32). -/
  keys : BitVec 16
  /-- `halt_latch` of the key-wait (R32, R233). -/
  haltLatch : Bool
  /-- The model's own: the host has called `update` (log entry 13). -/
  started : Bool
  /-- The model's own: how many random bytes have been drawn (log entry 6). -/
  rands : Nat
deriving DecidableEq, Repr

/-- A timer at reset: accumulator 0, value 0 (R36). -/
def Timer.zero : Timer := { acc := 0, value := 0 }

/-- What construction from a configuration record yields (R36, R300): font and zeros in Memory (no cell
listed), `pc` at `START`, the machine `Running`, everything else 0. -/
def State.initial (c : Config) : State :=
  { cfg := c
    mem := []
    regs := Vector.replicate 16 0
    index := 0
    pc := BitVec.ofNat 16 c.start
    stack := Vector.replicate 16 0
    sp := 0
    runState := .running
    delayTimer := Timer.zero
    soundTimer := Timer.zero
    vsyncTimer := Timer.zero
    instrTimer := Timer.zero
    bitgrid := List.replicate (c.width * c.height / 8) 0
    changed := false
    keys := 0
    haltLatch := false
    started := false
    rands := 0 }

/-- The machine right after reset, with the values the spec gives the parameters (R7, R36). -/
def State.reset : State := State.initial Config.standard

end Sys2Proof.Machine
end

