-- ==== Sys2Proof/Machine/Ops.lean ====
section
/-!
DEFINITION. The named operations over registers, Memory, the stack and the program counter, and taking a
fault (spec/00_scope.md R10, spec/20_memory.md, spec/60_exceptions.md R262).
-/
namespace Sys2Proof.Machine

/-! ### Memory as data (R30, R68) -/

/-- The 80 font bytes, 16 glyphs of 5 bytes (R68, from general knowledge, decision D3; log entry 5). -/
def fontBytes : List Byte :=
  [0xF0, 0x90, 0x90, 0x90, 0xF0] ++ [0x20, 0x60, 0x20, 0x20, 0x70] ++
  [0xF0, 0x10, 0xF0, 0x80, 0xF0] ++ [0xF0, 0x10, 0xF0, 0x10, 0xF0] ++
  [0x90, 0x90, 0xF0, 0x10, 0x10] ++ [0xF0, 0x80, 0xF0, 0x10, 0xF0] ++
  [0xF0, 0x80, 0xF0, 0x90, 0xF0] ++ [0xF0, 0x10, 0x20, 0x40, 0x40] ++
  [0xF0, 0x90, 0xF0, 0x90, 0xF0] ++ [0xF0, 0x90, 0xF0, 0x10, 0xF0] ++
  [0xF0, 0x90, 0xF0, 0x90, 0x90] ++ [0xE0, 0x90, 0xE0, 0x90, 0xE0] ++
  [0xF0, 0x80, 0x80, 0x80, 0xF0] ++ [0xE0, 0x90, 0x90, 0x90, 0xE0] ++
  [0xF0, 0x80, 0xF0, 0x80, 0xF0] ++ [0xF0, 0x80, 0xF0, 0x80, 0x80]

/-- What an address that no cell lists reads as: the reset contents, the font at `FONT_BASE` and 0
elsewhere (R36, R68). -/
def unlistedByte (addr : Nat) : Byte := fontBytes.getD (addr - Config.fontBase) 0

/-- The byte at an address. -/
def Memory.read : Memory → Nat → Byte
  | [], addr => unlistedByte addr
  | (k, b) :: m, addr => if addr = k then b else Memory.read m addr

/-- Prepends the cell of one byte, unless it is what an unlisted address reads as. -/
def Memory.cons (addr : Nat) (b : Byte) (m : Memory) : Memory :=
  if b = unlistedByte addr then m else (addr, b) :: m

/-- Writes the byte at an address, keeping the canonical form. -/
def Memory.write : Memory → Nat → Byte → Memory
  | [], addr, b => Memory.cons addr b []
  | (k, c) :: m, addr, b =>
    if addr < k then Memory.cons addr b ((k, c) :: m)
    else if addr = k then Memory.cons addr b m
    else (k, c) :: Memory.write m addr b

/-- Writes consecutive bytes from an address on, in order. -/
def Memory.writeBytes : Memory → Nat → List Byte → Memory
  | m, _, [] => m
  | m, addr, b :: bs => Memory.writeBytes (Memory.write m addr b) (addr + 1) bs

/-- The canonical form: addresses strictly rising, no cell equal to what an unlisted address reads as. -/
abbrev Memory.Wf (m : Memory) : Prop :=
  m.Pairwise (fun c d => c.1 < d.1) ∧ ∀ c ∈ m, c.2 ≠ unlistedByte c.1

/-! ### Reading and writing the parts of the state (R10) -/

/-- `V[r]`. -/
def State.reg (s : State) (r : Reg) : Byte := s.regs[r]

/-- `V[r] <- b`. -/
def State.setReg (s : State) (r : Reg) (b : Byte) : State := { s with regs := s.regs.set r b }

/-- `I <- w`. -/
def State.setIndex (s : State) (w : Word) : State := { s with index := w }

/-- `pc <- w`. -/
def State.setPc (s : State) (w : Word) : State := { s with pc := w }

/-- The stack entries and the stack pointer. -/
def State.setStack (s : State) (entries : Vector Word 16) (n : Fin 17) : State :=
  { s with stack := entries, sp := n }

/-- `run_state <- r`. -/
def State.setRunState (s : State) (r : RunState) : State := { s with runState := r }

/-- The contents of Memory. -/
def State.setMem (s : State) (m : Memory) : State := { s with mem := m }

/-- `Timer.set`: the value only, never the accumulator (R276, decision D24). -/
def Timer.set (t : Timer) (b : Byte) : Timer := { t with value := b }

/-- `DT <- b` (R251). -/
def State.setDT (s : State) (b : Byte) : State := { s with delayTimer := s.delayTimer.set b }

/-- `ST <- b` (R252). -/
def State.setST (s : State) (b : Byte) : State := { s with soundTimer := s.soundTimer.set b }

/-- `VS <- b` (R219). -/
def State.setVS (s : State) (b : Byte) : State := { s with vsyncTimer := s.vsyncTimer.set b }

/-- The packed bit grid. -/
def State.setGrid (s : State) (g : List Byte) : State := { s with bitgrid := g }

/-- `changed <- b` (R215). -/
def State.setChanged (s : State) (b : Bool) : State := { s with changed := b }

/-- `halt_latch <- b` (R233). -/
def State.setLatch (s : State) (b : Bool) : State := { s with haltLatch := b }

/-- The key bitmap (R231). -/
def State.setKeys (s : State) (k : BitVec 16) : State := { s with keys := k }

/-- One more random byte has been drawn (R183). -/
def State.drawRand (s : State) : State := { s with rands := s.rands + 1 }

/-- `DT`. -/
abbrev State.dt (s : State) : Byte := s.delayTimer.value

/-- `ST`. -/
abbrev State.st (s : State) : Byte := s.soundTimer.value

/-- `VS`. -/
abbrev State.vs (s : State) : Byte := s.vsyncTimer.value

/-- `is_running()` (R290). -/
def State.isRunning (s : State) : Bool := s.runState == .running

/-! ### Taking a fault (R262, R263) -/

/-- The outcome of an instruction or a step. -/
abbrev Result := Host.Outcome State Fault Refusal

/-- `raise F(info)`: the step ends and the machine becomes `HaltedOnFault(F(info))`; everything written
before stays written, and no register saves anything (R262, R263). There is no return from a fault:
both halted states are terminal (R120, R262). -/
def raise (f : Fault) (s : State) : Result := .next (s.setRunState (.haltedOnFault f))

/-! ### Memory access (R62, R63, R64) -/

/-- `MemRead(addr, 1)` (R62). -/
def memRead (addr : Nat) (s : State) : Except Fault Byte :=
  if s.cfg.memSize ≤ addr then .error (.outOfBounds addr) else .ok (s.mem.read addr)

/-- `MemWrite(addr, 1, b)` (R63). -/
def memWrite (addr : Nat) (b : Byte) (s : State) : Except Fault State :=
  if s.cfg.memSize ≤ addr then .error (.outOfBounds addr)
  else .ok (s.setMem (s.mem.write addr b))

/-- `MemRead(addr, 2)`: the big-endian word, the byte at the lower address the high byte (R64). -/
def memReadWord (addr : Nat) (s : State) : Except Fault Word :=
  if s.cfg.memSize ≤ addr + 1 then .error (.outOfBounds addr)
  else .ok (s.mem.read addr ++ s.mem.read (addr + 1))

/-! ### The program counter (R124) -/

/-- The fetch of the word at `pc` (R123). -/
def fetch (s : State) : Except Fault Word := memReadWord s.pc.toNat s

/-- `pc <- pc + 2`: the advance after the fetch, and a skip that is taken (R124). -/
def State.advance (s : State) : State := s.setPc (s.pc + 2)

/-- `pc <- pc - 2`: the rewind of an instruction that waits (R124). -/
def State.rewind (s : State) : State := s.setPc (s.pc - 2)

/-- A conditional skip: exactly the 2 bytes of the next instruction (spec/42_skip.md). -/
def State.skipIf (s : State) (cond : Bool) : State := if cond then s.advance else s

/-! ### The stack (R26) -/

/-- `stack[sp] <- w`, then `sp <- sp + 1`; `StackOverflow` when 16 entries are in use (R152). -/
def State.push (s : State) (w : Word) : Except Fault State :=
  if h : s.sp.val < 16 then
    .ok (s.setStack (s.stack.set s.sp.val w) ⟨s.sp.val + 1, by omega⟩)
  else .error .stackOverflow

/-- `sp <- sp - 1`, then the entry at `sp`, which is not erased; `StackUnderflow` when the stack is empty
(R150). -/
def State.pop (s : State) : Except Fault (Word × State) :=
  if h : s.sp.val = 0 then .error .stackUnderflow
  else
    .ok (s.stack[s.sp.val - 1]'(by omega),
      s.setStack s.stack ⟨s.sp.val - 1, by omega⟩)

end Sys2Proof.Machine
end

