-- ==== Sys2Proof/Machine/Flags.lean ====
section
/-!
DEFINITION. Every flag computation, and the order in which a result and a flag are written
(spec/10_state.md R23, spec/43_alu.md R180).
-/
namespace Sys2Proof.Machine

/-- A flag as the register holds it: 0 or 1 (R23). -/
def flagByte (f : Bool) : Byte := if f then 1 else 0

/-- The 8-bit sum carried out (R176, R180 (3)). -/
def carryOut (a b : Byte) : Bool := decide (256 ≤ a.toNat + b.toNat)

/-- `a - b` needed no borrow (R177, R178, R180 (4)). -/
def notBorrow (a b : Byte) : Bool := decide (b.toNat ≤ a.toNat)

/-- The bit a right shift by one shifts out, bit 0 (R179). -/
def shiftedOutRight (b : Byte) : Bool := b.getLsbD 0

/-- The bit a left shift by one shifts out, bit 7 (R181). -/
def shiftedOutLeft (b : Byte) : Bool := b.getLsbD 7

/-- `V[0xF] <- 1` if the flag is set, else 0. -/
def State.setFlag (s : State) (f : Bool) : State := s.setReg VF (flagByte f)

/-- The result to `V[x]` first, the flag to VF second, so with x = F the flag survives (R180 (2),
decision D11). -/
def State.setRegFlag (s : State) (x : Reg) (result : Byte) (f : Bool) : State :=
  (s.setReg x result).setFlag f

end Sys2Proof.Machine
end

