-- ==== Sys2Proof/Machine/Operands.lean ====
section
/-!
DEFINITION. The operand forms (spec/30_encoding.md R94, spec/44_index_memory.md R192): the registers an
X field names up to, addresses formed from the index register, the values written to memory, and the key
number held in a register.
-/
namespace Sys2Proof.Machine

/-- V0 up to and including `V[x]`, ascending (R196, R197, decision D25). -/
def regsUpTo (x : Reg) : List Reg := (List.finRange 16).take (x.val + 1)

/-- The index register plus a small offset, a natural number that never wraps (R192, decision D10). -/
def effectiveAddr (s : State) (offset : Nat) : Nat := s.index.toNat + offset

/-- The register zero-extended to the width of `I` and `pc` (R94). -/
def zext (b : Byte) : Word := b.setWidth 16

/-- The address of a font glyph: the whole register times 5, `FONT_BASE` = 0 (R194, decision D33). -/
def glyphAddr (b : Byte) : Word := BitVec.ofNat 16 (b.toNat * 5)

/-- The hundreds digit (R195). -/
def hundreds (b : Byte) : Byte := BitVec.ofNat 8 (b.toNat / 100)

/-- The tens digit (R195). -/
def tens (b : Byte) : Byte := BitVec.ofNat 8 (b.toNat / 10 % 10)

/-- The ones digit (R195). -/
def ones (b : Byte) : Byte := BitVec.ofNat 8 (b.toNat % 10)

/-- `Pressed(k)`: bit `k` of the key bitmap for k below 16; the spec defines nothing beyond (R232), a free
value of the configuration (log entry 8). -/
def pressed (k : Nat) (s : State) : Bool :=
  if k < 16 then s.keys.getLsbD k else Config.pressedBeyond k

/-- The key number a key skip takes from a register: the whole 8 bits, `InvalidKey` above 15 (R234,
decision D18). -/
def keyOperand (b : Byte) : Except Fault Nat :=
  if 15 < b.toNat then .error (.invalidKey b.toNat) else .ok b.toNat

end Sys2Proof.Machine
end

