-- ==== Sys2Proof/Machine/Alu.lean ====
section
/-!
DEFINITION. Load, arithmetic, logic, shift and random: 6XKK, 7XKK, 8XY0 to 8XY7, 8XYE, CXKK
(spec/43_alu.md). Operands are read before anything is written (R180 (1)).
-/
namespace Sys2Proof.Machine

/-- `6XKK` LD Vx, kk (R170). -/
def execLdImm (x : Reg) (kk : Byte) (s : State) : Result := .next (s.setReg x kk)

/-- `7XKK` ADD Vx, kk: wraps, writes no flag (R171). -/
def execAddImm (x : Reg) (kk : Byte) (s : State) : Result := .next (s.setReg x (s.reg x + kk))

/-- `8XY0` LD Vx, Vy: writes no flag (R172). -/
def execLdReg (x y : Reg) (s : State) : Result := .next (s.setReg x (s.reg y))

/-- `8XY1` OR Vx, Vy, then VF is cleared (R173). -/
def execOrReg (x y : Reg) (s : State) : Result :=
  .next (s.setRegFlag x (s.reg x ||| s.reg y) false)

/-- `8XY2` AND Vx, Vy, then VF is cleared (R174). -/
def execAndReg (x y : Reg) (s : State) : Result :=
  .next (s.setRegFlag x (s.reg x &&& s.reg y) false)

/-- `8XY3` XOR Vx, Vy, then VF is cleared (R175). -/
def execXorReg (x y : Reg) (s : State) : Result :=
  .next (s.setRegFlag x (s.reg x ^^^ s.reg y) false)

/-- `8XY4` ADD Vx, Vy, carry into VF (R176). -/
def execAddReg (x y : Reg) (s : State) : Result :=
  .next (s.setRegFlag x (s.reg x + s.reg y) (carryOut (s.reg x) (s.reg y)))

/-- `8XY5` SUB Vx, Vy, NOT-borrow into VF (R177). -/
def execSubReg (x y : Reg) (s : State) : Result :=
  .next (s.setRegFlag x (s.reg x - s.reg y) (notBorrow (s.reg x) (s.reg y)))

/-- `8XY6` SHR Vx, Vy: shifts `V[y]` (R179). -/
def execShrReg (x y : Reg) (s : State) : Result :=
  .next (s.setRegFlag x (s.reg y >>> 1) (shiftedOutRight (s.reg y)))

/-- `8XY7` SUBN Vx, Vy: the reverse subtract (R178, decision D12). -/
def execSubnReg (x y : Reg) (s : State) : Result :=
  .next (s.setRegFlag x (s.reg y - s.reg x) (notBorrow (s.reg y) (s.reg x)))

/-- `8XYE` SHL Vx, Vy: shifts `V[y]` (R181). -/
def execShlReg (x y : Reg) (s : State) : Result :=
  .next (s.setRegFlag x (s.reg y <<< 1) (shiftedOutLeft (s.reg y)))

/-- CXKK with the random byte given: the step's free input `r` (R121, R182). -/
def rndWith (r : Byte) (x : Reg) (kk : Byte) (s : State) : State := s.setReg x (r &&& kk)

/-- `CXKK` RND Vx, kk: the next random byte under the mask (R182, R183, log entry 6). -/
def execRnd (x : Reg) (kk : Byte) (s : State) : Result :=
  .next (rndWith (Config.randByte s.rands) x kk s.drawRand)

end Sys2Proof.Machine
end

