-- ==== Sys2Proof/Machine/Display.lean ====
section
/-!
DEFINITION. The display and its two instructions: 00E0, DXYN, with the vsync gate
(spec/45_display.md). The bit grid is a list of bytes, packed as R210 says.
-/
namespace Sys2Proof.Machine

/-- The byte of the bit grid that holds pixel (x, y) of a display `width` wide (R210). -/
def pixelByte (width x y : Nat) : Nat := (y * width + x) / 8

/-- The bit of that byte, 7 for the leftmost pixel of the eight (R210). -/
def pixelBit (x : Nat) : Nat := 7 - x % 8

/-- Pixel (x, y) of a packed grid (R210). -/
def gridPixel (width : Nat) (g : List Byte) (x y : Nat) : Bool :=
  (g.getD (pixelByte width x y) 0).getLsbD (pixelBit x)

/-- `get_pixel(x, y)`: off outside the display (R212). -/
def State.getPixel (s : State) (x y : Nat) : Bool :=
  if x < s.cfg.width ∧ y < s.cfg.height then gridPixel s.cfg.width s.bitgrid x y else false

/-- `clear()`: every pixel becomes 0 (R211). -/
def clearGrid (g : List Byte) : List Byte := g.map fun _ => 0

/-- `00E0` CLS: clears and sets the changed flag, not gated (R217). -/
def execCls (s : State) : Result := .next ((s.setGrid (clearGrid s.bitgrid)).setChanged true)

/-- `Plot(x, y)`: XORs the pixel and answers whether it was on; outside the display nothing changes and
there is no collision (R213). -/
def plot (c : Config) (x y : Nat) (g : List Byte) : List Byte × Bool :=
  if c.width ≤ x ∨ c.height ≤ y then (g, false)
  else
    (g.modify (pixelByte c.width x y) (fun b => b ^^^ BitVec.twoPow 8 (pixelBit x)),
      gridPixel c.width g x y)

/-- `set_pixel(x, y, on)`: a bit of 0 changes nothing and is no collision (R213, decision D16). -/
def setPixel (c : Config) (x y : Nat) (on : Bool) (g : List Byte) : List Byte × Bool :=
  if on then plot c x y g else (g, false)

/-- Column `col` of a sprite row byte, bit 7 leftmost (R218, decision D16). -/
def spriteBit (b : Byte) (col : Nat) : Bool := b.getLsbD (7 - col)

/-- Plots the columns of one sprite row in the order of the list, and answers whether any collided. -/
def blitCols (c : Config) (px py : Nat) (b : Byte) : List Nat → List Byte → List Byte × Bool
  | [], g => (g, false)
  | col :: cols, g =>
    let (g1, hit1) := setPixel c (px + col) py (spriteBit b col) g
    let (g2, hit2) := blitCols c px py b cols g1
    (g2, hit1 || hit2)

/-- One sprite row with its left end at (px, py): columns 0 to 7 (R218). -/
def blitRow (c : Config) (px py : Nat) (b : Byte) (g : List Byte) : List Byte × Bool :=
  blitCols c px py b (List.range 8) g

/-- What a draw writes after its last row: VF, the vsync budget, the changed flag (R218). -/
def State.finishDraw (s : State) (hit : Bool) : State :=
  ((s.setFlag hit).setVS Config.vsyncReload).setChanged true

/-- The rows of a sprite in the order of the list: each byte is read from Memory, then plotted; a read
outside Memory ends the step with the rows before it drawn (R218, decisions D16, D20). -/
def drawRows (px py : Nat) : List Nat → Bool → State → Result
  | [], hit, s => .next (s.finishDraw hit)
  | row :: rows, hit, s =>
    match memRead (effectiveAddr s row) s with
    | .error f => raise f s
    | .ok b =>
      let (g, h) := blitRow s.cfg px (py + row) b s.bitgrid
      drawRows px py rows (hit || h) (s.setGrid g)

/-- `DXYN` DRW Vx, Vy, n: rewinds while the vsync timer is not ready, else draws with its origin reduced
modulo the display size (R218, R219). -/
def execDrw (x y : Reg) (n : Nat) (s : State) : Result :=
  if s.vs ≠ 0 then .next s.rewind
  else
    drawRows ((s.reg x).toNat % s.cfg.width) ((s.reg y).toNat % s.cfg.height)
      (List.range n) false s

end Sys2Proof.Machine
end

