-- ==== Sys2Proof/Machine/Flow.lean ====
section
/-!
DEFINITION. Control transfer: 00EE, 1NNN, 2NNN, BNNN (spec/41_flow.md). Every meaning is entered with
`pc` = a + 2, a being the address of the instruction (R124).
-/
namespace Sys2Proof.Machine

/-- `00EE` RET (R150). -/
def execRet (s : State) : Result :=
  match s.pop with
  | .error f => raise f s
  | .ok (w, t) => .next (t.setPc w)

/-- `1NNN` JP nnn, with the self-jump halt (R151). -/
def execJp (nnn : Word) (s : State) : Result :=
  if nnn = s.pc - 2 then .next ((s.setPc nnn).setRunState .haltedOnInfiniteLoop)
  else .next (s.setPc nnn)

/-- `2NNN` CALL nnn: the return address is the advanced `pc` (R152). -/
def execCall (nnn : Word) (s : State) : Result :=
  match s.push s.pc with
  | .error f => raise f s
  | .ok t => .next (t.setPc nnn)

/-- `BNNN` JP V0, nnn: the sum is not reduced modulo 4096 (R153). -/
def execJpV0 (nnn : Word) (s : State) : Result := .next (s.setPc (nnn + zext (s.reg 0)))

end Sys2Proof.Machine
end

