-- ==== Sys2Proof/Machine/IndexMemory.lean ====
section
/-!
DEFINITION. The index register and memory: ANNN, FX1E, FX29, FX33, FX55, FX65
(spec/44_index_memory.md). The bytes of one instruction move in ascending order, each access checked on
its own; what moved before a fault stays moved (R192 (3)).
-/
namespace Sys2Proof.Machine

/-- `ANNN` LD I, nnn (R190). -/
def execLdI (nnn : Word) (s : State) : Result := .next (s.setIndex nnn)

/-- `FX1E` ADD I, Vx: modulo 65536, no flag (R191). -/
def execAddI (x : Reg) (s : State) : Result := .next (s.setIndex (s.index + zext (s.reg x)))

/-- `FX29` LD F, Vx (R194). -/
def execLdF (x : Reg) (s : State) : Result := .next (s.setIndex (glyphAddr (s.reg x)))

/-- Writes bytes at consecutive addresses, in order, `I` unchanged; stops at the first one outside
Memory. -/
def storeAt : Nat → List Byte → State → Result
  | _, [], s => .next s
  | addr, b :: bs, s =>
    match memWrite addr b s with
    | .error f => raise f s
    | .ok t => storeAt (addr + 1) bs t

/-- `FX33` LD B, Vx: the decimal digits, most significant first, at `I`, `I + 1`, `I + 2` (R195). -/
def execLdB (x : Reg) (s : State) : Result :=
  storeAt (effectiveAddr s 0) [hundreds (s.reg x), tens (s.reg x), ones (s.reg x)] s

/-- `MemWrite(I, 1, V[r])`, then `I <- I + 1`, for each register of the list in order (R196). -/
def storeMany : List Reg → State → Result
  | [], s => .next s
  | r :: rs, s =>
    match memWrite s.index.toNat (s.reg r) s with
    | .error f => raise f s
    | .ok t => storeMany rs (t.setIndex (t.index + 1))

/-- `FX55` LD [I], Vx (R196). -/
def execStoreRegs (x : Reg) (s : State) : Result := storeMany (regsUpTo x) s

/-- `V[r] <- MemRead(I, 1)`, then `I <- I + 1`, for each register of the list in order (R197). -/
def loadMany : List Reg → State → Result
  | [], s => .next s
  | r :: rs, s =>
    match memRead s.index.toNat s with
    | .error f => raise f s
    | .ok b => loadMany rs ((s.setReg r b).setIndex (s.index + 1))

/-- `FX65` LD Vx, [I] (R197). -/
def execLoadRegs (x : Reg) (s : State) : Result := loadMany (regsUpTo x) s

end Sys2Proof.Machine
end

