-- ==== Sys2Proof/Machine/Keyboard.lean ====
section
/-!
DEFINITION. The key skips and the key-wait: EX9E, EXA1, FX0A (spec/46_keyboard.md).
-/
namespace Sys2Proof.Machine

/-- `EX9E` SKP Vx (R235). -/
def execSkp (x : Reg) (s : State) : Result :=
  match keyOperand (s.reg x) with
  | .error f => raise f s
  | .ok k => .next (s.skipIf (pressed k s))

/-- `EXA1` SKNP Vx (R236). -/
def execSknp (x : Reg) (s : State) : Result :=
  match keyOperand (s.reg x) with
  | .error f => raise f s
  | .ok k => .next (s.skipIf (!pressed k s))

/-- The lowest key that is down, scanning 0 to 15 (R237, decision D17). -/
def firstPressed (s : State) : Option Reg := (List.finRange 16).find? fun k => pressed k.val s

/-- `FX0A` LD Vx, K: with the latch clear, look for a pressed key, latch it and rewind; with the latch
set, rewind until the latched key is up (R237). -/
def execLdVxK (x : Reg) (s : State) : Result :=
  if s.haltLatch then
    if pressed (s.reg x).toNat s then .next s.rewind else .next (s.setLatch false)
  else
    match firstPressed s with
    | some k => .next ((s.setReg x (BitVec.ofNat 8 k.val)).setLatch true).rewind
    | none => .next s.rewind

end Sys2Proof.Machine
end

