-- ==== Sys2Proof/Machine/Timers.lean ====
section
/-!
DEFINITION. The timer instructions FX07, FX15, FX18 (spec/47_timers.md) and the Timer block in its two
modes (spec/60_exceptions.md R275 to R277). Time is exact (R11).
-/
namespace Sys2Proof.Machine

/-- `FX07` LD Vx, DT (R250). -/
def execLdVxDt (x : Reg) (s : State) : Result := .next (s.setReg x s.dt)

/-- `FX15` LD DT, Vx: the value only (R251). -/
def execLdDtVx (x : Reg) (s : State) : Result := .next (s.setDT (s.reg x))

/-- `FX18` LD ST, Vx: the value only (R252). -/
def execLdStVx (x : Reg) (s : State) : Result := .next (s.setST (s.reg x))

/-- The whole periods of a timer of this rate in a time: `floor(t * rate)` (R277). -/
def wholePeriods (rate : Rat) (t : Time) : Nat := (t * rate).floor.toNat

/-- Countdown mode in closed form: the value falls by one for each period crossed and stops at 0; the
accumulator keeps the rest (R275). -/
def Timer.countdown (rate : Rat) (t : Timer) (delta : Time) : Timer :=
  { acc := t.acc + delta - (wholePeriods rate (t.acc + delta) : Rat) / rate
    value := BitVec.ofNat 8 (t.value.toNat - wholePeriods rate (t.acc + delta)) }

/-- The loop of R275 as the spec writes it, on a timer that has already received its delta, for at most
the given number of turns. -/
def Timer.countdownLoop (rate : Rat) : Nat → Timer → Timer
  | 0, t => t
  | turns + 1, t =>
    if 1 / rate ≤ t.acc then
      Timer.countdownLoop rate turns
        { acc := t.acc - 1 / rate
          value := if 0 < t.value.toNat then t.value - 1 else t.value }
    else t

/-- Period mode: `accumulate` (R277). -/
def Timer.accumulate (t : Timer) (delta : Time) : Timer := { t with acc := t.acc + delta }

/-- Period mode: `elapsed_periods` (R277). -/
def Timer.elapsedPeriods (rate : Rat) (t : Timer) : Nat := wholePeriods rate t.acc

/-- Period mode: `reset` subtracts exactly the elapsed periods and keeps the fraction (R277). -/
def Timer.dropPeriods (rate : Rat) (n : Nat) (t : Timer) : Timer :=
  { t with acc := t.acc - (n : Rat) / rate }

end Sys2Proof.Machine
end

