-- ==== Sys2Proof/Machine/Step.lean ====
section
/-!
DEFINITION. The step: fetch, advance, decode, execute (spec/40_step_engine.md R121 to R128), and how the
host places one instruction where the step fetches.
-/
namespace Sys2Proof.Machine

/-- One instruction slot (R122). A halted machine is returned unchanged (R128); a fetch fault leaves `pc`
where it is (R123); an unknown word faults with `pc` already advanced (R125). -/
def step (s : State) : Host.Outcome State Fault Refusal :=
  match s.runState with
  | .running =>
    match fetch s with
    | .error f => raise f s
    | .ok w =>
      match decode w with
      | .ok i => exec i s.advance
      | .error _ => raise (.unknownOpcode w) s.advance
  | .haltedOnInfiniteLoop => .next s
  | .haltedOnFault _ => .next s

/-- The state with the instruction `w` of the opcode table stored, high byte first, at `pc`, where the next
step of a running machine fetches (log entry 16). -/
def State.withFetchWord (s : State) (nbits w : Nat) : State :=
  s.setMem (s.mem.writeBytes s.pc.toNat (bytesOfWord (tableWord nbits w)))

end Sys2Proof.Machine
end

