-- ==== Sys2Proof/Machine/HostOps.lean ====
section
/-!
DEFINITION. The host interface (spec/60_exceptions.md R285 to R293): construct, load, update, key events
and the accessors. Every operation is atomic and none happens inside a step.
-/
namespace Sys2Proof.Machine

/-- construct(config): the reset state, or a refusal for a record outside the constraints of R7 (R300,
R301). -/
def construct (c : Config) : Result :=
  if c.Valid then .next (State.initial c) else .refused .badConfig

/-! ### Loading a program (R65, R286) -/

/-- The ROM is longer than the room from `START` on (R65). -/
def romTooLarge (rom : List Byte) (s : State) : Bool := decide (s.cfg.memSize - s.cfg.start < rom.length)

/-- `load_rom(data)`: the bytes copied from `START` on, Memory unchanged if they do not fit (R65). -/
def loadRom (rom : List Byte) (s : State) : State :=
  if romTooLarge rom s then s else s.setMem (s.mem.writeBytes s.cfg.start rom)

/-! ### The update (R130) -/

/-- Instruction slots in a row; a halted machine runs none (R130, R133). -/
def runBatch : Nat → State → Result
  | 0, s => .next s
  | n + 1, s =>
    match step s with
    | .next t => runBatch n t
    | .fault f => .fault f
    | .refused r => .refused r

/-- The delay and sound timers count down on every update, halted or not (R130, decision D22). -/
def State.countTimers (s : State) (delta : Time) : State :=
  { s with
    delayTimer := s.delayTimer.countdown Config.timerRate delta
    soundTimer := s.soundTimer.countdown Config.timerRate delta }

/-- The CPU's own timers: the vsync countdown, and the delta received by the instruction timer (R130). -/
def State.countCpuTimers (s : State) (delta : Time) : State :=
  { s with
    vsyncTimer := s.vsyncTimer.countdown s.cfg.vsyncRate delta
    instrTimer := s.instrTimer.accumulate delta }

/-- The host has called `update` (log entry 13). -/
def State.markStarted (s : State) : State := { s with started := true }

/-- How many slots an update of this delta has: `floor((acc + delta) * INSTR_RATE)` (R131). -/
def State.slots (s : State) (delta : Time) : Nat :=
  (s.instrTimer.accumulate delta).elapsedPeriods s.cfg.instrRate

/-- `reset` of the instruction timer after a batch of `n` slots (R130, R277). -/
def State.closeBatch (s : State) (n : Nat) : State :=
  { s with instrTimer := s.instrTimer.dropPeriods s.cfg.instrRate n }

/-- `update(delta)`: the timers advance, then the batch runs (R130). A negative delta is refused (R287). -/
def update (delta : Time) (s : State) : Result :=
  if delta < 0 then .refused .negativeDelta
  else
    let timed := (s.countTimers delta).markStarted
    if timed.isRunning then
      match runBatch (s.slots delta) (timed.countCpuTimers delta) with
      | .next t => .next (t.closeBatch (s.slots delta))
      | .fault f => .fault f
      | .refused r => .refused r
    else .next timed

/-! ### Key events (R231) -/

/-- What an id above 15 does: the bitmap is unchanged, and a running machine halts; a halted one keeps its
halt (R231, decision D18). -/
def badKey (id : Nat) (s : State) : State :=
  if s.isRunning then s.setRunState (.haltedOnFault (.invalidKey id)) else s

/-- `press(id)` sets bit `id` (R231, decision D19). -/
def press (id : Nat) (s : State) : State :=
  if id < 16 then s.setKeys (s.keys ||| BitVec.twoPow 16 id) else badKey id s

/-- `release(id)` clears bit `id` (R231, decision D19). -/
def release (id : Nat) (s : State) : State :=
  if id < 16 then s.setKeys (s.keys &&& ~~~ BitVec.twoPow 16 id) else badKey id s

/-! ### The operations as one interface (R285) -/

/-- What the host may do to a constructed machine (R285). -/
inductive HostOp where
  | load (rom : List Byte)
  | update (delta : Time)
  | press (id : Nat)
  | release (id : Nat)
  | isRunning
  | getPixel (x y : Nat)
  | getChanged
  | resetChanged
  | getSound
  | dimensions
deriving DecidableEq, Repr

/-- What the host is answered. -/
inductive Reply where
  /-- The operation has no result. -/
  | done
  /-- `load` fails and changes nothing (R65, R286). -/
  | romTooLarge
  /-- The "typed result" of `update`: the run state with the fault it may hold (R287). -/
  | status (r : RunState)
  /-- `is_running()`, `get_pixel`, `get_changed()` (R290, R291). -/
  | answer (b : Bool)
  /-- `ST` (R292). -/
  | level (b : Byte)
  /-- `WIDTH` and `HEIGHT` (R291). -/
  | size (width height : Nat)
deriving DecidableEq, Repr

/-- `load(rom)`: refused after the first update (R285, decision D27), else the copy or `RomTooLarge`
(R286). -/
def hostLoad (rom : List Byte) (s : State) : Host.Outcome (Reply × State) Fault Refusal :=
  if s.started then .refused .lateLoad
  else if romTooLarge rom s then .next (.romTooLarge, s)
  else .next (.done, loadRom rom s)

/-- `update(delta)` with its typed result (R287). -/
def hostUpdate (delta : Time) (s : State) : Host.Outcome (Reply × State) Fault Refusal :=
  match update delta s with
  | .next t => .next (.status t.runState, t)
  | .fault f => .fault f
  | .refused r => .refused r

/-- One host operation: its answer and the state after it (R285 to R292). -/
def hostOp (op : HostOp) (s : State) : Host.Outcome (Reply × State) Fault Refusal :=
  match op with
  | .load rom => hostLoad rom s
  | .update delta => hostUpdate delta s
  | .press id => .next (.done, press id s)
  | .release id => .next (.done, release id s)
  | .isRunning => .next (.answer s.isRunning, s)
  | .getPixel x y => .next (.answer (s.getPixel x y), s)
  | .getChanged => .next (.answer s.changed, s)
  | .resetChanged => .next (.done, s.setChanged false)
  | .getSound => .next (.level s.st, s)
  | .dimensions => .next (.size s.cfg.width s.cfg.height, s)

/-- Several updates in a row, with no other host operation between them. -/
def updates : List Time → State → Result
  | [], s => .next s
  | d :: ds, s =>
    match update d s with
    | .next t => updates ds t
    | .fault f => .fault f
    | .refused r => .refused r

/-- The slots of several updates in a row, added up (R131). -/
def totalSlots : List Time → State → Nat
  | [], _ => 0
  | d :: ds, s =>
    s.slots d + match update d s with
      | .next t => totalSlots ds t
      | .fault _ => 0
      | .refused _ => 0

end Sys2Proof.Machine
end

