-- ==== Sys2Proof/Safety.lean ====
section
/-!
DEFINITION. The terms statements use: what a step and an instruction leave alone, the addresses and pixels
an instruction reaches, which states are legal (spec/10_state.md R35, spec/46_keyboard.md R238), and what
counts as a safe run.
-/
namespace Sys2Proof

/-- The general registers an instruction may write, VF as a flag among them (spec/10_state.md R22, R23). -/
def Instr.regDests : Instr → List Reg
  | .ldImm x _ | .addImm x _ | .ldReg x _ | .rnd x _ | .ldVxDt x | .ldVxK x => [x]
  | .orReg x _ | .andReg x _ | .xorReg x _ | .addReg x _ | .subReg x _ | .shrReg x _
  | .subnReg x _ | .shlReg x _ => [x, VF]
  | .drw _ _ _ => [VF]
  | .loadRegs x => Machine.regsUpTo x
  | .cls | .ret | .jp _ | .call _ | .seImm _ _ | .sneImm _ _ | .seReg _ _ | .sneReg _ _
  | .ldI _ | .jpV0 _ | .skp _ | .sknp _ | .ldDtVx _ | .ldStVx _ | .addI _ | .ldF _ | .ldB _
  | .storeRegs _ => []

end Sys2Proof

namespace Sys2Proof.Machine

/-! ### Frames -/

/-- Every general register but those of the list is unchanged. -/
def SameRegsBut (rs : List Reg) (s t : State) : Prop := ∀ r, r ∉ rs → t.reg r = s.reg r

/-- Every address that is not one of the stored ones reads as before. -/
def SameBytesBut (stored : Nat → Prop) (s t : State) : Prop :=
  ∀ a, ¬ stored a → memRead a t = memRead a s

/-- Every address reads as before. -/
def SameBytes (s t : State) : Prop := ∀ a, memRead a t = memRead a s

/-- The stack and its pointer are unchanged. -/
def SameStack (s t : State) : Prop := t.stack = s.stack ∧ t.sp = s.sp

/-- All four timers, accumulators and values, are unchanged. -/
def SameTimers (s t : State) : Prop :=
  t.delayTimer = s.delayTimer ∧ t.soundTimer = s.soundTimer ∧
  t.vsyncTimer = s.vsyncTimer ∧ t.instrTimer = s.instrTimer

/-- The display and its changed flag are unchanged. -/
def SameDisplay (s t : State) : Prop := t.bitgrid = s.bitgrid ∧ t.changed = s.changed

/-- The keys and the key-wait latch are unchanged. -/
def SameKeyboard (s t : State) : Prop := t.keys = s.keys ∧ t.haltLatch = s.haltLatch

/-- Timers, display, keyboard and configuration are unchanged. -/
def SameDevices (s t : State) : Prop :=
  SameTimers s t ∧ SameDisplay s t ∧ SameKeyboard s t ∧ t.cfg = s.cfg

/-- Of the state the spec names, only general registers of the list changed. -/
def OnlyRegsChange (rs : List Reg) (s t : State) : Prop :=
  SameRegsBut rs s t ∧ t.index = s.index ∧ t.pc = s.pc ∧ SameStack s t ∧ SameBytes s t ∧
  SameDevices s t ∧ t.runState = s.runState

/-- Of the state the spec names, only the index register changed. -/
def OnlyIndexChanges (s t : State) : Prop :=
  SameRegsBut [] s t ∧ t.pc = s.pc ∧ SameStack s t ∧ SameBytes s t ∧ SameDevices s t ∧
  t.runState = s.runState

/-- Of the state the spec names, only the stack and the program counter changed. -/
def OnlyStackAndPcChange (s t : State) : Prop :=
  SameRegsBut [] s t ∧ t.index = s.index ∧ SameBytes s t ∧ SameDevices s t ∧
  t.runState = s.runState

/-! ### Addresses and pixels -/

/-- The address of the `k`-th byte of a block move: the index register itself after `k` increments, which
wraps (R196). -/
def blockAddr (s : State) (k : Nat) : Nat := (s.index + BitVec.ofNat 16 k).toNat

/-- Whether a sprite of `n` rows with its origin at (px, py) has a set bit at column `cx`, row `cy` (R218):
row `cy - py` of the sprite is the byte at that offset from the index register, bit 7 leftmost. -/
def spriteOn (s : State) (px py n cx cy : Nat) : Bool :=
  decide (px ≤ cx ∧ cx < px + 8 ∧ py ≤ cy ∧ cy < py + n) &&
    spriteBit (s.mem.read (effectiveAddr s (cy - py))) (cx - px)

/-- The column a sprite starts at: the register modulo the width (R218). -/
def originX (s : State) (x : Reg) : Nat := (s.reg x).toNat % s.cfg.width

/-- The row a sprite starts at: the register modulo the height (R218). -/
def originY (s : State) (y : Reg) : Nat := (s.reg y).toNat % s.cfg.height

/-- Some pixel of the display under a set bit of the sprite is on. -/
def SpriteHits (s : State) (px py n : Nat) : Prop :=
  ∃ cx cy, cx < s.cfg.width ∧ cy < s.cfg.height ∧ spriteOn s px py n cx cy = true ∧
    s.getPixel cx cy = true

/-- The bit grid has the display's size, and its width is a multiple of 8 (R7, R210). -/
def GridLegal (s : State) : Prop :=
  s.cfg.width % 8 = 0 ∧ s.bitgrid.length = s.cfg.width * s.cfg.height / 8

/-- The glyphs of the digits 0 to F, five sprite rows each, transcribed from the table of R68 row by row (general
knowledge in the spec, decision D3; log entry 5): what statements about the font are held against. -/
def standardGlyphs : List (List Byte) :=
  [[0xF0, 0x90, 0x90, 0x90, 0xF0], [0x20, 0x60, 0x20, 0x20, 0x70],
    [0xF0, 0x10, 0xF0, 0x80, 0xF0], [0xF0, 0x10, 0xF0, 0x10, 0xF0]] ++
  [[0x90, 0x90, 0xF0, 0x10, 0x10], [0xF0, 0x80, 0xF0, 0x10, 0xF0],
    [0xF0, 0x80, 0xF0, 0x90, 0xF0], [0xF0, 0x10, 0x20, 0x40, 0x40]] ++
  [[0xF0, 0x90, 0xF0, 0x90, 0xF0], [0xF0, 0x90, 0xF0, 0x10, 0xF0],
    [0xF0, 0x90, 0xF0, 0x90, 0x90], [0xE0, 0x90, 0xE0, 0x90, 0xE0]] ++
  [[0xF0, 0x80, 0x80, 0x80, 0xF0], [0xE0, 0x90, 0x90, 0x90, 0xE0],
    [0xF0, 0x80, 0xF0, 0x80, 0xF0], [0xF0, 0x80, 0xF0, 0x80, 0x80]]

/-! ### Chains of calls and returns (R26) -/

/-- Calls to these targets, one after another. -/
def callAll : List Word → State → Result
  | [], s => .next s
  | w :: ws, s =>
    match exec (.call w) s with
    | .next t => callAll ws t
    | .fault f => .fault f
    | .refused r => .refused r

/-- The program counters after each of `n` returns. -/
def returnAll : Nat → State → List Word
  | 0, _ => []
  | n + 1, s =>
    match exec .ret s with
    | .next t => t.pc :: returnAll n t
    | .fault _ => []
    | .refused _ => []

/-! ### Legal states -/

/-- A timer's accumulator is not negative and less than its period (R28, R35). -/
def Timer.Settled (rate : Rat) (t : Timer) : Prop := 0 ≤ t.acc ∧ t.acc * rate < 1

/-- While the latch is set, `pc` is the address of an FX0A whose register holds a key number (R238). -/
def LatchLegal (s : State) : Prop :=
  s.haltLatch = true →
    ∃ w x, fetch s = .ok w ∧ decode w = .ok (.ldVxK x) ∧ (s.reg x).toNat < 16

/-- The invariants of the machine (R35, R210, R238): a legal configuration, Memory in canonical form and
inside its bounds, a bit grid of the display's size, timers as between updates, a legal latch. -/
structure Inv (s : State) : Prop where
  cfg : s.cfg.Valid
  mem : Memory.Wf s.mem
  bound : ∀ c ∈ s.mem, c.1 < s.cfg.memSize
  grid : s.bitgrid.length = s.cfg.width * s.cfg.height / 8
  delay : s.delayTimer.Settled Config.timerRate
  sound : s.soundTimer.Settled Config.timerRate
  vsync : s.vsyncTimer.Settled s.cfg.vsyncRate
  instr : s.instrTimer.Settled s.cfg.instrRate
  latch : LatchLegal s

/-- The invariants between host operations: `Inv`, and before the first update no key is latched, since no
step has run. -/
def SessionInv (s : State) : Prop := Inv s ∧ (s.started = false → s.haltLatch = false)

/-! ### Safe runs -/

/-- The machine has not faulted: it runs, or it halted on purpose (R120, R264). -/
def State.unfaulted (s : State) : Bool :=
  match s.runState with
  | .running => true
  | .haltedOnInfiniteLoop => true
  | .haltedOnFault _ => false

/-- A run of this many steps is safe: every step answers a next state and none of them has faulted. -/
def SafeRun : Nat → State → Prop
  | 0, s => s.unfaulted = true
  | n + 1, s => s.unfaulted = true ∧ ∃ t, step s = .next t ∧ SafeRun n t

end Sys2Proof.Machine
end

