-- ==== Sys2Proof/Certificates/Slice0/Obligations.lean ====
section
/-!
DEFINITION. The statements for the provers, from the numbered rules of the spec. Where a clause rests on a
decision the spec marks as its own (spec/92_eei_decisions.md) or on a choice of the model, the docstring
names it.
-/

open Sys2Proof Sys2Proof.Machine

/-! ### Encoding (spec/30_encoding.md) -/

/-- A few words written out from the patterns of R100, and two that match no row (R103). The group n3 = 8
rests on decision D12, the rejection of 5XY1 on decision D32. -/
def Obligations.WrittenWordsDecode : Prop :=
  decode 0x00E0 = .ok .cls ∧ decode 0x1ABC = .ok (.jp 0xABC) ∧
  decode 0x3A7F = .ok (.seImm 0xA 0x7F) ∧ decode 0x5AB0 = .ok (.seReg 0xA 0xB) ∧
  decode 0x8ABE = .ok (.shlReg 0xA 0xB) ∧ decode 0xD125 = .ok (.drw 1 2 5) ∧
  decode 0xEA9E = .ok (.skp 0xA) ∧ decode 0xFE65 = .ok (.loadRegs 0xE) ∧
  decode 0x0000 = .error (.unknownOpcode 0x0000) ∧ decode 0x5AB1 = .error (.unknownOpcode 0x5AB1)

/-- No bit of an encoding is dropped: decoding the word of a well-formed instruction gives it back. -/
def Obligations.DecodeOfEncode : Prop :=
  ∀ i : Instr, i.wellFormed = true → decode (encode i) = .ok i

/-- Every word has one meaning: what a word decodes to is well formed and is encoded by that word alone. -/
def Obligations.EncodeOfDecode : Prop :=
  ∀ (w : Word) (i : Instr), decode w = .ok i → i.wellFormed = true ∧ encode i = w

/-- The nibble dispatch is the opcode map of masks and matches (R100), whose rows are pairwise disjoint
(R101); a word of no row is rejected by name (R103). The map's group n3 = 8 rests on decision D12. -/
def Obligations.DecoderAgreesWithMasks : Prop :=
  ∀ w : Word,
    (∀ i, decode w = .ok i → i.row ∈ opcodeTable ∧ i.row.matchesWord w = true) ∧
    ((∃ r ∈ opcodeTable, r.matchesWord w = true) → ∃ i, decode w = .ok i) ∧
    ((∀ r ∈ opcodeTable, r.matchesWord w = false) → decode w = .error (.unknownOpcode w)) ∧
    (∀ r ∈ opcodeTable, ∀ q ∈ opcodeTable,
      r.matchesWord w = true → q.matchesWord w = true → r = q)

/-! ### The step (spec/40_step_engine.md) -/

/-- A running machine runs the instruction that the two bytes at `pc` decode to, entered with `pc` advanced
by 2 and nothing else changed (R122, R124). The wrap of `pc` is decision D9. -/
def Obligations.StepRunsDecodedInstruction : Prop :=
  ∀ (s : State) (hi lo : Byte) (i : Instr), s.runState = .running →
    memRead s.pc.toNat s = .ok hi → memRead (s.pc.toNat + 1) s = .ok lo →
    decodeBytes [hi, lo] = .ok (i, []) →
    step s = exec i { s with pc := s.pc + 2 }

/-- The fetch reads the big-endian word at `pc`, odd or even; at and beyond the last byte of Memory it
raises `OutOfBounds(pc)` and `pc` is not advanced (R123). -/
def Obligations.FetchIsBigEndianOrFaults : Prop :=
  ∀ s : State, s.runState = .running →
    (s.pc.toNat + 1 < s.cfg.memSize →
      ∃ hi lo w, memRead s.pc.toNat s = .ok hi ∧ memRead (s.pc.toNat + 1) s = .ok lo ∧
        fetch s = .ok w ∧ w.toNat = hi.toNat * 256 + lo.toNat) ∧
    (s.cfg.memSize ≤ s.pc.toNat + 1 →
      step s = .next { s with runState := .haltedOnFault (.outOfBounds s.pc.toNat) })

/-- A word of a row runs that row's instruction, whose fields are the word's; a word of no row raises
`UnknownOpcode(w)` with `pc` already advanced (R125). -/
def Obligations.UnknownWordFaultsAfterAdvance : Prop :=
  ∀ (s : State) (w : Word), s.runState = .running → fetch s = .ok w →
    (∀ r ∈ opcodeTable, r.matchesWord w = true →
      ∃ i, i.row = r ∧ encode i = w ∧ decode w = .ok i ∧ step s = exec i { s with pc := s.pc + 2 }) ∧
    ((∀ r ∈ opcodeTable, r.matchesWord w = false) →
      step s = .next { s with pc := s.pc + 2, runState := .haltedOnFault (.unknownOpcode w) })

/-- On a halted machine no step is executed: a step returns it unchanged, and so does a batch (R128). An
update still counts the delay and sound timers down and leaves all else the spec names alone: that these two
count, and that the CPU's vsync and instruction timers stand still, is decision D22 (R130, R283; log entry
28). -/
def Obligations.HaltedMachineRunsNothing : Prop :=
  ∀ s : State, s.runState ≠ .running →
    step s = .next s ∧ (∀ n, runBatch n s = .next s) ∧
    ∀ delta : Time, 0 ≤ delta → ∃ t, update delta s = .next t ∧
      t.delayTimer = s.delayTimer.countdown 60 delta ∧
      t.soundTimer = s.soundTimer.countdown 60 delta ∧
      SameRegsBut [] s t ∧ t.index = s.index ∧ t.pc = s.pc ∧ SameStack s t ∧ SameBytes s t ∧
      SameDisplay s t ∧ SameKeyboard s t ∧ t.vsyncTimer = s.vsyncTimer ∧
      t.instrTimer = s.instrTimer ∧ t.cfg = s.cfg ∧ t.runState = s.runState

/-- Every instruction and every step answers a next state: a fault is taken, not an outcome (R262). -/
def Obligations.EveryStepAnswersNext : Prop :=
  (∀ (i : Instr) (s : State), ∃ t, exec i s = .next t) ∧ ∀ s : State, ∃ t, step s = .next t

/-! ### Control transfer (spec/41_flow.md) -/

/-- 00EE pops the stack into `pc`; the popped entry is not erased; on an empty stack it raises
`StackUnderflow` and changes nothing else (R150). -/
def Obligations.ReturnPopsStack : Prop :=
  ∀ s : State,
    (s.sp.val = 0 →
      exec .ret s = .next { s with runState := .haltedOnFault .stackUnderflow }) ∧
    (∀ k : Fin 16, s.sp.val = k.val + 1 →
      ∃ t, exec .ret s = .next t ∧ t.pc = s.stack[k] ∧ t.sp.val = k.val ∧ t.stack = s.stack ∧
        OnlyStackAndPcChange s t)

/-- 2NNN pushes the advanced `pc` and jumps; with 16 entries in use it raises `StackOverflow` and changes
nothing else (R152). -/
def Obligations.CallPushesReturnAddress : Prop :=
  ∀ (nnn : Word) (s : State),
    (s.sp.val = 16 →
      exec (.call nnn) s = .next { s with runState := .haltedOnFault .stackOverflow }) ∧
    (∀ k : Fin 16, s.sp.val = k.val →
      ∃ t, exec (.call nnn) s = .next t ∧ t.pc = nnn ∧ t.sp.val = k.val + 1 ∧
        t.stack[k] = s.pc ∧ (∀ j : Fin 16, j ≠ k → t.stack[j] = s.stack[j]) ∧
        OnlyStackAndPcChange s t)

/-- The stack is strict last in, first out: as many returns as calls resume at the return addresses in
reverse order; a call on the full stack then faults, and so does a return on the empty one (R26). The
first return address is the entry `pc`, each later one the target before it. -/
def Obligations.StackIsLastInFirstOut : Prop :=
  ∀ (ws : List Word) (s : State), s.sp.val + ws.length ≤ 16 →
    ∃ t, callAll ws s = .next t ∧ t.sp.val = s.sp.val + ws.length ∧
      returnAll ws.length t = ((s.pc :: ws).dropLast).reverse ∧
      (t.sp.val = 16 → ∀ w, ∃ u, exec (.call w) t = .next u ∧
        u.runState = .haltedOnFault .stackOverflow ∧ SameStack t u) ∧
      (t.sp.val = 0 → ∃ u, exec .ret t = .next u ∧
        u.runState = .haltedOnFault .stackUnderflow ∧ SameStack t u)

/-- 1NNN jumps, and a jump to its own address also halts, with no fault (R151). That `pc` is left at the
target by the halt is decision D21. -/
def Obligations.JumpHaltsOnItself : Prop :=
  ∀ (nnn : Word) (s : State),
    (nnn ≠ s.pc - 2 → exec (.jp nnn) s = .next { s with pc := nnn }) ∧
    (nnn = s.pc - 2 →
      exec (.jp nnn) s = .next { s with pc := nnn, runState := .haltedOnInfiniteLoop })

/-- No instruction stops the machine on purpose but the self-jump: a step of a running machine ends in
`HaltedOnInfiniteLoop` exactly when the word at `pc` is a 1NNN to `pc` (R120, R137, R151). -/
def Obligations.OnlySelfJumpHaltsOnPurpose : Prop :=
  ∀ s t : State, s.runState = .running → step s = .next t →
    (t.runState = .haltedOnInfiniteLoop ↔
      ∃ w, fetch s = .ok w ∧ decode w = .ok (.jp s.pc))

/-- BNNN jumps to the sum of NNN and V0 and has no self-jump check (R153). That the sum is not masked to 12
bits is decision D9. -/
def Obligations.JumpAddsVZero : Prop :=
  ∀ (nnn : Word) (s : State), nnn.toNat < 4096 →
    ∃ target : Word, target.toNat = nnn.toNat + (s.reg 0).toNat ∧
      exec (.jpV0 nnn) s = .next { s with pc := target }

/-! ### Skips (spec/42_skip.md) -/

/-- The four register skips add 2 more to `pc` when their condition holds and do nothing else (R160 to
R163). -/
def Obligations.RegisterSkips : Prop :=
  ∀ (x y : Reg) (kk : Byte) (s : State),
    (exec (.seImm x kk) s = .next { s with pc := if s.reg x = kk then s.pc + 2 else s.pc }) ∧
    (exec (.sneImm x kk) s = .next { s with pc := if s.reg x ≠ kk then s.pc + 2 else s.pc }) ∧
    (exec (.seReg x y) s = .next { s with pc := if s.reg x = s.reg y then s.pc + 2 else s.pc }) ∧
    (exec (.sneReg x y) s = .next { s with pc := if s.reg x ≠ s.reg y then s.pc + 2 else s.pc })

/-! ### Load, arithmetic, logic, shift, random (spec/43_alu.md) -/

/-- 6XKK and 8XY0 write the immediate and `V[y]` into `V[x]` and change nothing else; x = F writes VF as an
ordinary register (R170, R172). -/
def Obligations.LoadsWriteOneRegister : Prop :=
  ∀ (x y : Reg) (kk : Byte) (s : State),
    (∃ t, exec (.ldImm x kk) s = .next t ∧ t.reg x = kk ∧ OnlyRegsChange [x] s t) ∧
    (∃ t, exec (.ldReg x y) s = .next t ∧ t.reg x = s.reg y ∧ OnlyRegsChange [x] s t)

/-- 7XKK adds modulo 256 and writes no flag (R171). That VF is not written as a flag is decision D29. -/
def Obligations.AddImmediateWraps : Prop :=
  ∀ (x : Reg) (kk : Byte) (s : State),
    ∃ t, exec (.addImm x kk) s = .next t ∧
      (t.reg x).toNat = ((s.reg x).toNat + kk.toNat) % 256 ∧ OnlyRegsChange [x] s t

/-- 8XY1, 8XY2 and 8XY3 compute bit by bit and then clear VF, which with x = F overwrites the result (R173,
R174, R175). -/
def Obligations.LogicClearsFlag : Prop :=
  ∀ (x y : Reg) (s : State),
    (∃ t, exec (.orReg x y) s = .next t ∧
      (x ≠ VF → ∀ b, (t.reg x).getLsbD b = ((s.reg x).getLsbD b || (s.reg y).getLsbD b)) ∧
      t.reg VF = 0 ∧ OnlyRegsChange [x, VF] s t) ∧
    (∃ t, exec (.andReg x y) s = .next t ∧
      (x ≠ VF → ∀ b, (t.reg x).getLsbD b = ((s.reg x).getLsbD b && (s.reg y).getLsbD b)) ∧
      t.reg VF = 0 ∧ OnlyRegsChange [x, VF] s t) ∧
    (∃ t, exec (.xorReg x y) s = .next t ∧
      (x ≠ VF → ∀ b, (t.reg x).getLsbD b = ((s.reg x).getLsbD b != (s.reg y).getLsbD b)) ∧
      t.reg VF = 0 ∧ OnlyRegsChange [x, VF] s t)

/-- 8XY4 adds modulo 256 and leaves the carry in VF (R176, R180 (3)). That with x = F the carry is what VF
holds is decision D11. -/
def Obligations.AddWritesCarry : Prop :=
  ∀ (x y : Reg) (s : State),
    ∃ t, exec (.addReg x y) s = .next t ∧
      (x ≠ VF → (t.reg x).toNat = ((s.reg x).toNat + (s.reg y).toNat) % 256) ∧
      (t.reg VF).toNat = (if 256 ≤ (s.reg x).toNat + (s.reg y).toNat then 1 else 0) ∧
      OnlyRegsChange [x, VF] s t

/-- 8XY5 and 8XY7 subtract modulo 256 and leave NOT-borrow in VF (R177, R178, R180 (4)). Decision D11 for
x = F; the existence of 8XY7 is decision D12. -/
def Obligations.SubtractsWriteNotBorrow : Prop :=
  ∀ (x y : Reg) (s : State),
    (∃ t, exec (.subReg x y) s = .next t ∧
      (x ≠ VF → ((t.reg x).toNat : Int) = ((s.reg x).toNat - (s.reg y).toNat : Int) % 256) ∧
      (t.reg VF).toNat = (if (s.reg y).toNat ≤ (s.reg x).toNat then 1 else 0) ∧
      OnlyRegsChange [x, VF] s t) ∧
    (∃ t, exec (.subnReg x y) s = .next t ∧
      (x ≠ VF → ((t.reg x).toNat : Int) = ((s.reg y).toNat - (s.reg x).toNat : Int) % 256) ∧
      (t.reg VF).toNat = (if (s.reg x).toNat ≤ (s.reg y).toNat then 1 else 0) ∧
      OnlyRegsChange [x, VF] s t)

/-- 8XY6 and 8XYE shift `V[y]` by one and leave the bit shifted out in VF (R179, R181). Decision D11 for
x = F. -/
def Obligations.ShiftsTakeRegisterY : Prop :=
  ∀ (x y : Reg) (s : State),
    (∃ t, exec (.shrReg x y) s = .next t ∧
      (x ≠ VF → (t.reg x).toNat = (s.reg y).toNat / 2) ∧
      (t.reg VF).toNat = (s.reg y).toNat % 2 ∧ OnlyRegsChange [x, VF] s t) ∧
    (∃ t, exec (.shlReg x y) s = .next t ∧
      (x ≠ VF → (t.reg x).toNat = (s.reg y).toNat * 2 % 256) ∧
      (t.reg VF).toNat = (s.reg y).toNat / 128 ∧ OnlyRegsChange [x, VF] s t)

/-- CXKK writes the random byte it draws, ANDed with kk, and every result has no bit outside kk (R182). The
byte is the free value `Config.randByte` at the number of bytes drawn before, which goes up by one: the
model's form of the step's free input (log entry 6), of which nothing is known. For every byte that could be
drawn, the state that CXKK leaves with it holds that byte under the mask. -/
def Obligations.RandomByteUnderMask : Prop :=
  ∀ (x : Reg) (kk : Byte) (s : State),
    (∀ r : Byte, (rndWith r x kk s).reg x = r &&& kk ∧ OnlyRegsChange [x] s (rndWith r x kk s)) ∧
    (∃ t, exec (.rnd x kk) s = .next t ∧
      t = rndWith (Config.randByte s.rands) x kk { s with rands := s.rands + 1 } ∧
      t.reg x = Config.randByte s.rands &&& kk ∧ t.reg x &&& ~~~ kk = 0 ∧
      t.rands = s.rands + 1 ∧ OnlyRegsChange [x] s t)

/-! ### Index register and memory (spec/44_index_memory.md) -/

/-- ANNN loads the index register and changes nothing else (R190). -/
def Obligations.LoadIndex : Prop :=
  ∀ (nnn : Word) (s : State),
    ∃ t, exec (.ldI nnn) s = .next t ∧ t.index = nnn ∧ OnlyIndexChanges s t

/-- FX1E adds `V[x]` to the index register modulo 65536 and writes no flag; FX29 loads `V[x]` times 5 (R191,
R194). Decisions D10, D29 and D33. -/
def Obligations.IndexArithmetic : Prop :=
  ∀ (x : Reg) (s : State),
    (∃ t, exec (.addI x) s = .next t ∧
      t.index.toNat = (s.index.toNat + (s.reg x).toNat) % 65536 ∧ OnlyIndexChanges s t) ∧
    (∃ t, exec (.ldF x) s = .next t ∧ t.index.toNat = (s.reg x).toNat * 5 ∧ OnlyIndexChanges s t)

/-- FX33 stores the three decimal digits of `V[x]`, most significant first; at the first address outside
Memory it raises `OutOfBounds` and the digits before it stay written (R195). -/
def Obligations.DecimalDigitsStored : Prop :=
  ∀ (x : Reg) (s : State), Memory.Wf s.mem →
    ∃ t, exec (.ldB x) s = .next t ∧
      (∀ (k : Fin 3), effectiveAddr s k.val < s.cfg.memSize →
        ∃ d, memRead (effectiveAddr s k.val) t = .ok d ∧
          d.toNat = (s.reg x).toNat / 10 ^ (2 - k.val) % 10) ∧
      SameBytesBut (fun a => ∃ k : Fin 3, a = effectiveAddr s k.val) s t ∧
      SameRegsBut [] s t ∧ t.index = s.index ∧ t.pc = s.pc ∧ SameStack s t ∧ SameDevices s t ∧
      (effectiveAddr s 2 < s.cfg.memSize → t.runState = s.runState) ∧
      (s.cfg.memSize ≤ effectiveAddr s 2 → t.runState =
        .haltedOnFault (.outOfBounds (max (effectiveAddr s 0) s.cfg.memSize)))

/-- FX55 stores V0 to `V[x]` at the moving index register, which ends x + 1 higher, when all its addresses
lie in Memory (R196). The register range is decision D25, the wrap of the index register decision D10. -/
def Obligations.BlockStoreCompletes : Prop :=
  ∀ (x : Reg) (s : State), Memory.Wf s.mem →
    (∀ k : Reg, k ≤ x → blockAddr s k.val < s.cfg.memSize) →
    ∃ t, exec (.storeRegs x) s = .next t ∧
      (∀ k : Reg, k ≤ x → memRead (blockAddr s k.val) t = .ok (s.reg k)) ∧
      SameBytesBut (fun a => ∃ k : Reg, k ≤ x ∧ a = blockAddr s k.val) s t ∧
      t.index = s.index + BitVec.ofNat 16 (x.val + 1) ∧ SameRegsBut [] s t ∧ t.pc = s.pc ∧
      SameStack s t ∧ SameDevices s t ∧ t.runState = s.runState

/-- FX55 stops at the first address outside Memory: the registers before it are stored, the index register
is at that address, and the fault names it (R196, R263). Decisions D20 and D25. -/
def Obligations.BlockStoreStopsAtBound : Prop :=
  ∀ (x j : Reg) (s : State), Memory.Wf s.mem → j ≤ x →
    (∀ k : Reg, k < j → blockAddr s k.val < s.cfg.memSize) →
    s.cfg.memSize ≤ blockAddr s j.val →
    ∃ t, exec (.storeRegs x) s = .next t ∧
      (∀ k : Reg, k < j → memRead (blockAddr s k.val) t = .ok (s.reg k)) ∧
      SameBytesBut (fun a => ∃ k : Reg, k < j ∧ a = blockAddr s k.val) s t ∧
      t.index = s.index + BitVec.ofNat 16 j.val ∧ SameRegsBut [] s t ∧ t.pc = s.pc ∧
      SameStack s t ∧ SameDevices s t ∧
      t.runState = .haltedOnFault (.outOfBounds (blockAddr s j.val))

/-- FX65 loads V0 to `V[x]` from the moving index register, which ends x + 1 higher, when all its addresses
lie in Memory; the registers above are unchanged (R197). Decisions D10 and D25. -/
def Obligations.BlockLoadCompletes : Prop :=
  ∀ (x : Reg) (s : State),
    (∀ k : Reg, k ≤ x → blockAddr s k.val < s.cfg.memSize) →
    ∃ t, exec (.loadRegs x) s = .next t ∧
      (∀ k : Reg, k ≤ x → memRead (blockAddr s k.val) s = .ok (t.reg k)) ∧
      SameRegsBut (regsUpTo x) s t ∧ t.index = s.index + BitVec.ofNat 16 (x.val + 1) ∧
      t.pc = s.pc ∧ SameBytes s t ∧ SameStack s t ∧ SameDevices s t ∧ t.runState = s.runState

/-- FX65 stops at the first address outside Memory: the registers before it are loaded, the others
unchanged, the index register is at that address, and the fault names it (R197, R263). Decisions D20 and
D25. -/
def Obligations.BlockLoadStopsAtBound : Prop :=
  ∀ (x j : Reg) (s : State), j ≤ x →
    (∀ k : Reg, k < j → blockAddr s k.val < s.cfg.memSize) →
    s.cfg.memSize ≤ blockAddr s j.val →
    ∃ t, exec (.loadRegs x) s = .next t ∧
      (∀ k : Reg, k < j → memRead (blockAddr s k.val) s = .ok (t.reg k)) ∧
      (∀ k : Reg, j ≤ k → t.reg k = s.reg k) ∧ t.index = s.index + BitVec.ofNat 16 j.val ∧
      t.pc = s.pc ∧ SameBytes s t ∧ SameStack s t ∧ SameDevices s t ∧
      t.runState = .haltedOnFault (.outOfBounds (blockAddr s j.val))

/-! ### Display (spec/45_display.md) -/

/-- 00E0 turns every pixel off and sets the changed flag; it is not gated and leaves VF and the vsync timer
alone (R211, R217). That it sets the flag is decision D15. -/
def Obligations.ClearScreen : Prop :=
  ∀ s : State, ∃ t, exec .cls s = .next t ∧
    (∀ cx cy, t.getPixel cx cy = false) ∧ t.bitgrid.length = s.bitgrid.length ∧ t.changed = true ∧
    SameRegsBut [] s t ∧ t.index = s.index ∧ t.pc = s.pc ∧ SameStack s t ∧ SameBytes s t ∧
    SameTimers s t ∧ SameKeyboard s t ∧ t.cfg = s.cfg ∧ t.runState = s.runState

/-- A plot toggles its pixel and answers whether it was on; off the display it changes nothing and answers
no collision; a sprite bit of 0 does neither (R213). The last is decision D16. -/
def Obligations.PlotTogglesOnePixel : Prop :=
  ∀ (s : State) (x y : Nat), GridLegal s →
    (∀ cx cy, cx < s.cfg.width → cy < s.cfg.height →
      (s.setGrid (plot s.cfg x y s.bitgrid).1).getPixel cx cy =
        (s.getPixel cx cy ^^ decide (cx = x ∧ cy = y))) ∧
    (plot s.cfg x y s.bitgrid).2 = s.getPixel x y ∧
    (s.cfg.width ≤ x ∨ s.cfg.height ≤ y → plot s.cfg x y s.bitgrid = (s.bitgrid, false)) ∧
    setPixel s.cfg x y true s.bitgrid = plot s.cfg x y s.bitgrid ∧
    setPixel s.cfg x y false s.bitgrid = (s.bitgrid, false)

/-- A DXYN whose vsync timer is not ready only rewinds: the step as a whole changes nothing, and a batch of
any length ends where it began (R134, R219 (2)). -/
def Obligations.GatedDrawWaits : Prop :=
  (∀ (x y : Reg) (n : Nat) (s : State), s.vs ≠ 0 →
    exec (.drw x y n) s = .next { s with pc := s.pc - 2 }) ∧
  ∀ (x y : Reg) (n k : Nat) (w : Word) (s : State), s.runState = .running → fetch s = .ok w →
    decode w = .ok (.drw x y n) → s.vs ≠ 0 → step s = .next s ∧ runBatch k s = .next s

/-- A DXYN that executes XORs its sprite onto the display, clipped at the edges, with its origin reduced
modulo the display size; VF tells whether a pixel was turned off; the vsync budget is used and the changed
flag set (R218, R220). Decisions D14, D15 and D16. -/
def Obligations.DrawTogglesSprite : Prop :=
  ∀ (x y : Reg) (n : Nat) (s : State), GridLegal s → s.vs = 0 →
    (∀ row, row < n → effectiveAddr s row < s.cfg.memSize) →
    ∃ t, exec (.drw x y n) s = .next t ∧
      (∀ cx cy, cx < s.cfg.width → cy < s.cfg.height →
        t.getPixel cx cy =
          (s.getPixel cx cy ^^ spriteOn s (originX s x) (originY s y) n cx cy)) ∧
      (SpriteHits s (originX s x) (originY s y) n → t.reg VF = 1) ∧
      (¬ SpriteHits s (originX s x) (originY s y) n → t.reg VF = 0) ∧
      t.vsyncTimer = { s.vsyncTimer with value := 1 } ∧ t.changed = true ∧ GridLegal t ∧
      SameRegsBut [VF] s t ∧ t.index = s.index ∧ t.pc = s.pc ∧ SameStack s t ∧ SameBytes s t ∧
      t.delayTimer = s.delayTimer ∧ t.soundTimer = s.soundTimer ∧ t.instrTimer = s.instrTimer ∧
      SameKeyboard s t ∧ t.cfg = s.cfg ∧ t.runState = s.runState

/-- A DXYN that reads a sprite row outside Memory faults with the rows before it on the display, and
writes neither VF nor the vsync timer nor the changed flag (R218, R263). Decisions D16 and D20. -/
def Obligations.DrawStopsAtBound : Prop :=
  ∀ (x y : Reg) (n row : Nat) (s : State), GridLegal s → s.vs = 0 → row < n →
    (∀ r, r < row → effectiveAddr s r < s.cfg.memSize) → s.cfg.memSize ≤ effectiveAddr s row →
    ∃ t, exec (.drw x y n) s = .next t ∧
      (∀ cx cy, cx < s.cfg.width → cy < s.cfg.height →
        t.getPixel cx cy =
          (s.getPixel cx cy ^^ spriteOn s (originX s x) (originY s y) row cx cy)) ∧
      t.changed = s.changed ∧ SameRegsBut [] s t ∧ t.index = s.index ∧ t.pc = s.pc ∧
      SameStack s t ∧ SameBytes s t ∧ SameTimers s t ∧ SameKeyboard s t ∧ t.cfg = s.cfg ∧
      t.runState = .haltedOnFault (.outOfBounds (effectiveAddr s row))

/-- Drawing the same sprite twice at the same location restores the picture; onto a clear region the first
draw yields VF = 0, and the second VF = 1 if the sprite lights a pixel of the display (R214). The second
draw starts with the registers and the vsync timer of the first. -/
def Obligations.RedrawRestoresPicture : Prop :=
  ∀ (x y : Reg) (n : Nat) (s t : State), GridLegal s → s.vs = 0 →
    (∀ row, row < n → effectiveAddr s row < s.cfg.memSize) → exec (.drw x y n) s = .next t →
    ∃ u, exec (.drw x y n) { t with regs := s.regs, vsyncTimer := s.vsyncTimer } = .next u ∧
      (∀ cx cy, u.getPixel cx cy = s.getPixel cx cy) ∧
      ((¬ SpriteHits s (originX s x) (originY s y) n) →
        (∃ cx cy, cx < s.cfg.width ∧ cy < s.cfg.height ∧
          spriteOn s (originX s x) (originY s y) n cx cy = true) →
        t.reg VF = 0 ∧ u.reg VF = 1)

/-- At most one DXYN executes per update: from a state whose vsync timer is not ready, no step of a batch
loads it again or turns a pixel on (R127, R219 (5)). -/
def Obligations.NoSecondDrawInBatch : Prop :=
  ∀ (k : Nat) (s t : State), s.vs ≠ 0 → runBatch k s = .next t →
    t.vsyncTimer = s.vsyncTimer ∧
    ∀ cx cy, t.getPixel cx cy = true → s.getPixel cx cy = true

/-! ### Keyboard (spec/46_keyboard.md) -/

/-- EX9E and EXA1 skip on the key named by the whole register; a register above 15 raises `InvalidKey`
(R235, R236). That it is not masked is decision D18. -/
def Obligations.KeySkips : Prop :=
  ∀ (x : Reg) (s : State),
    ((s.reg x).toNat < 16 →
      exec (.skp x) s = .next
        { s with pc := if s.keys.getLsbD (s.reg x).toNat then s.pc + 2 else s.pc } ∧
      exec (.sknp x) s = .next
        { s with pc := if s.keys.getLsbD (s.reg x).toNat then s.pc else s.pc + 2 }) ∧
    (16 ≤ (s.reg x).toNat →
      exec (.skp x) s = .next
        { s with runState := .haltedOnFault (.invalidKey (s.reg x).toNat) } ∧
      exec (.sknp x) s = .next
        { s with runState := .haltedOnFault (.invalidKey (s.reg x).toNat) })

/-- FX0A: with the latch clear and no key down it rewinds; with the latch clear it latches the lowest key
that is down and rewinds; with the latch set it rewinds until the latched key is up, then clears the latch
and goes on (R237). Decision D17. -/
def Obligations.KeyWaitPhases : Prop :=
  ∀ (x : Reg) (s : State),
    (s.haltLatch = false → s.keys = 0 →
      exec (.ldVxK x) s = .next { s with pc := s.pc - 2 }) ∧
    (∀ k : Reg, s.haltLatch = false → s.keys.getLsbD k.val = true →
      (∀ j : Reg, j < k → s.keys.getLsbD j.val = false) →
      ∃ t, exec (.ldVxK x) s = .next t ∧ (t.reg x).toNat = k.val ∧ t.haltLatch = true ∧
        t.pc = s.pc - 2 ∧ SameRegsBut [x] s t ∧ t.index = s.index ∧ SameStack s t ∧
        SameBytes s t ∧ SameTimers s t ∧ SameDisplay s t ∧ t.keys = s.keys ∧ t.cfg = s.cfg ∧
        t.runState = s.runState) ∧
    (s.haltLatch = true → (s.reg x).toNat < 16 → s.keys.getLsbD (s.reg x).toNat = true →
      exec (.ldVxK x) s = .next { s with pc := s.pc - 2 }) ∧
    (s.haltLatch = true → (s.reg x).toNat < 16 → s.keys.getLsbD (s.reg x).toNat = false →
      exec (.ldVxK x) s = .next { s with haltLatch := false })

/-- A key-wait with no key down waits for ever without a fault: every run of it is safe and leaves the
machine as it was (R239). -/
def Obligations.KeyWaitWithoutKeysIsSafe : Prop :=
  ∀ (k : Nat) (x : Reg) (w : Word) (s : State), s.runState = .running → fetch s = .ok w →
    decode w = .ok (.ldVxK x) → s.haltLatch = false → s.keys = 0 →
    SafeRun k s ∧ runBatch k s = .next s

/-! ### Timers (spec/47_timers.md, spec/60_exceptions.md) -/

/-- FX07 reads the delay timer, with no side effect on it (R250). -/
def Obligations.DelayTimerRead : Prop :=
  ∀ (x : Reg) (s : State),
    ∃ t, exec (.ldVxDt x) s = .next t ∧ t.reg x = s.delayTimer.value ∧ OnlyRegsChange [x] s t

/-- FX15 and FX18 load the value of the delay and of the sound timer and nothing else (R251, R252). That
the accumulator is not reset is decision D24. -/
def Obligations.TimerLoads : Prop :=
  ∀ (x : Reg) (s : State),
    (exec (.ldDtVx x) s =
      .next { s with delayTimer := { s.delayTimer with value := s.reg x } }) ∧
    (exec (.ldStVx x) s =
      .next { s with soundTimer := { s.soundTimer with value := s.reg x } })

/-- The closed form of the countdown is the loop of R275, run until the accumulator is below a period. -/
def Obligations.CountdownIsTheLoop : Prop :=
  ∀ (rate : Rat) (t : Timer) (delta : Time) (turns : Nat), 0 < rate → 0 ≤ t.acc + delta →
    wholePeriods rate (t.acc + delta) ≤ turns →
    Timer.countdownLoop rate turns { t with acc := t.acc + delta } = t.countdown rate delta

/-- Splitting time over several calls does not change a countdown: no time is dropped (R275, R323). -/
def Obligations.CountdownsAdd : Prop :=
  ∀ (rate : Rat) (t : Timer) (d e : Time), 0 < rate → 0 ≤ t.acc → 0 ≤ d → 0 ≤ e →
    (t.countdown rate d).countdown rate e = t.countdown rate (d + e)

/-! ### The update and the host interface (spec/40_step_engine.md, spec/60_exceptions.md) -/

/-- An update of a running machine counts the timers down first, then runs exactly
`n = floor((acc + delta) * INSTR_RATE)` slots, then keeps the fraction, which is at least 0 and less than a
period (R130, R131). Decisions D22, D23; that `started` is set is the model's own (log entry 13). -/
def Obligations.UpdateRunsTheCadence : Prop :=
  ∀ (delta : Time) (s : State) (n : Nat), 0 ≤ delta → s.runState = .running →
    0 < s.cfg.instrRate → 0 ≤ s.instrTimer.acc →
    (n : Rat) ≤ (s.instrTimer.acc + delta) * s.cfg.instrRate →
    (s.instrTimer.acc + delta) * s.cfg.instrRate < (n : Rat) + 1 →
    ∃ u, runBatch n
        { s with
          delayTimer := s.delayTimer.countdown 60 delta
          soundTimer := s.soundTimer.countdown 60 delta
          vsyncTimer := s.vsyncTimer.countdown s.cfg.vsyncRate delta
          instrTimer := { s.instrTimer with acc := s.instrTimer.acc + delta }
          started := true } = .next u ∧
      update delta s = .next
        { u with instrTimer :=
            { s.instrTimer with acc := s.instrTimer.acc + delta - n / s.cfg.instrRate } } ∧
      0 ≤ s.instrTimer.acc + delta - n / s.cfg.instrRate ∧
      s.instrTimer.acc + delta - n / s.cfg.instrRate < 1 / s.cfg.instrRate

/-- Over any sequence of updates that ends with the machine still running, the slots run add up to
`floor(T * INSTR_RATE)`, T the sum of the deltas: the split into calls does not matter (R131). Time is exact
and a period is crossed when it is reached by decision D6 (log entry 10), the order inside an update is
decision D23 (log entry 28). -/
def Obligations.TotalSlotsAreTheFloor : Prop :=
  ∀ (ds : List Time) (s t : State), (∀ d ∈ ds, 0 ≤ d) → 0 < s.cfg.instrRate →
    s.instrTimer.acc = 0 → updates ds s = .next t → t.runState = .running →
    (totalSlots ds s : Rat) ≤ ds.sum * s.cfg.instrRate ∧
    ds.sum * s.cfg.instrRate < (totalSlots ds s : Rat) + 1 ∧
    t.instrTimer.acc = ds.sum - totalSlots ds s / s.cfg.instrRate

/-- A load before the first update copies the ROM from START on and touches nothing else; a ROM too long is
answered by `RomTooLarge` and changes nothing (R65, R286). The last is decision D27. -/
def Obligations.LoadCopiesRom : Prop :=
  ∀ (rom : List Byte) (s : State), s.started = false → Memory.Wf s.mem →
    s.cfg.start ≤ s.cfg.memSize →
    (rom.length ≤ s.cfg.memSize - s.cfg.start →
      ∃ t, hostOp (.load rom) s = .next (.done, t) ∧
        (∀ k (h : k < rom.length), memRead (s.cfg.start + k) t = .ok rom[k]) ∧
        SameBytesBut (fun a => s.cfg.start ≤ a ∧ a < s.cfg.start + rom.length) s t ∧
        SameRegsBut [] s t ∧ t.index = s.index ∧ t.pc = s.pc ∧ SameStack s t ∧
        SameDevices s t ∧ t.runState = s.runState) ∧
    (s.cfg.memSize - s.cfg.start < rom.length → hostOp (.load rom) s = .next (.romTooLarge, s))

/-- What the host must not do is refused: a configuration outside the constraints of R7, a negative delta,
a load after the first update (R285, R287, R301). Decisions D1, D6, D27. -/
def Obligations.HostDutiesAreRefused : Prop :=
  (∀ c : Config, ¬ c.Valid → construct c = .refused .badConfig) ∧
  (∀ c : Config, c.Valid → construct c = .next (State.initial c)) ∧
  (∀ (delta : Time) (s : State), delta < 0 →
    hostOp (.update delta) s = .refused .negativeDelta) ∧
  (∀ (delta : Time) (rom : List Byte) (s t : State), update delta s = .next t →
    hostOp (.load rom) t = .refused .lateLoad)

/-- `press(id)` sets bit `id` and `release(id)` clears it, every other key as before; an id above 15 leaves
the keys alone and halts a running machine (R231). Decisions D18, D19. -/
def Obligations.KeyEventsSetAndClear : Prop :=
  ∀ (id : Nat) (s : State),
    (id < 16 →
      (∃ t, hostOp (.press id) s = .next (.done, t) ∧ t = { s with keys := t.keys } ∧
        ∀ k, k < 16 → t.keys.getLsbD k = (decide (k = id) || s.keys.getLsbD k)) ∧
      (∃ t, hostOp (.release id) s = .next (.done, t) ∧ t = { s with keys := t.keys } ∧
        ∀ k, k < 16 → t.keys.getLsbD k = (decide (k ≠ id) && s.keys.getLsbD k))) ∧
    (16 ≤ id → s.runState = .running →
      hostOp (.press id) s =
        .next (.done, { s with runState := .haltedOnFault (.invalidKey id) }) ∧
      hostOp (.release id) s =
        .next (.done, { s with runState := .haltedOnFault (.invalidKey id) })) ∧
    (16 ≤ id → s.runState ≠ .running →
      hostOp (.press id) s = .next (.done, s) ∧ hostOp (.release id) s = .next (.done, s))

/-- The halted states are terminal: no step and no host operation leaves them (R120, R290). -/
def Obligations.HaltIsFinal : Prop :=
  ∀ s : State, s.runState ≠ .running →
    (∀ t, step s = .next t → t.runState = s.runState) ∧
    ∀ (op : HostOp) (reply : Reply) (t : State), hostOp op s = .next (reply, t) →
      t.runState = s.runState

/-- The accessors answer what the state holds and only `reset_changed` changes it (R290, R291, R292, R212,
R215). The set of accessors is decision D30. -/
def Obligations.AccessorsReadTheState : Prop :=
  ∀ (x y : Nat) (s : State),
    hostOp .isRunning s = .next (.answer (decide (s.runState = .running)), s) ∧
    (x < s.cfg.width → y < s.cfg.height → hostOp (.getPixel x y) s = .next (.answer
      ((s.bitgrid.getD ((y * s.cfg.width + x) / 8) 0).getLsbD (7 - x % 8)), s)) ∧
    (s.cfg.width ≤ x ∨ s.cfg.height ≤ y →
      hostOp (.getPixel x y) s = .next (.answer false, s)) ∧
    hostOp .getChanged s = .next (.answer s.changed, s) ∧
    hostOp .resetChanged s = .next (.done, { s with changed := false }) ∧
    hostOp .getSound s = .next (.level s.soundTimer.value, s) ∧
    hostOp .dimensions s = .next (.size s.cfg.width s.cfg.height, s)

/-! ### Reset (spec/10_state.md R36, spec/70_reset_and_hazards.md R300) -/

/-- What construction leaves: everything 0, `pc` at START, the machine running, the display dark, Memory the
80 font bytes and zero beyond them (R36, R68, R300). Decisions D2 and D8 (log entry 2). The font bytes are
general knowledge that the spec takes by decision D3 (log entry 5, PRESUMED). -/
def Obligations.ResetValues : Prop :=
  ∀ c : Config, c.Valid → ∃ s, construct c = .next s ∧ s.cfg = c ∧
    (∀ r, s.reg r = 0) ∧ s.index = 0 ∧ s.pc.toNat = c.start ∧ s.sp.val = 0 ∧
    (∀ k : Fin 16, s.stack[k] = 0) ∧ s.runState = .running ∧
    (∀ t ∈ [s.delayTimer, s.soundTimer, s.vsyncTimer, s.instrTimer], t.acc = 0 ∧ t.value = 0) ∧
    (∀ x y, s.getPixel x y = false) ∧ s.changed = false ∧ s.keys = 0 ∧ s.haltLatch = false ∧
    (∀ digit row : Nat, digit < 16 → row < 5 →
      memRead (digit * 5 + row) s = .ok ((standardGlyphs.getD digit []).getD row 0)) ∧
    (∀ a, 80 ≤ a → a < c.memSize → memRead a s = .ok 0)

/-! ### Invariants and whole-machine rules -/

/-- The reset state meets the invariants, and so does every state that construction yields. -/
def Obligations.ResetMeetsInvariants : Prop :=
  Inv State.reset ∧ ∀ (c : Config) (s : State), construct c = .next s → SessionInv s

/-- Every step keeps the invariants: Memory canonical and in bounds, the bit grid's size, settled timers, a
latch that only an FX0A at `pc` holds (R35, R210, R238). -/
def Obligations.StepKeepsInvariants : Prop :=
  ∀ s t : State, Inv s → step s = .next t → Inv t

/-- Every host operation keeps the invariants between host operations (R35, R238, R285). That a load comes
only before the first update is decision D27 (log entry 13). -/
def Obligations.HostOperationsKeepInvariants : Prop :=
  ∀ (op : HostOp) (reply : Reply) (s t : State), SessionInv s → hostOp op s = .next (reply, t) →
    SessionInv t

/-- Each instruction writes no general register but its destinations; VF as a flag is written only by 8XY1
to 8XY7, 8XYE and DXYN (R22, R23). Decision D29. -/
def Obligations.RegisterWriters : Prop :=
  ∀ (i : Instr) (s t : State), exec i s = .next t → SameRegsBut i.regDests s t

/-- Which instructions write Memory, the display, the stack and the index register; the changed flag is
never cleared by the block (R25, R26, R30, R31, R216). -/
def Obligations.MemoryAndDisplayWriters : Prop :=
  ∀ (i : Instr) (s t : State), exec i s = .next t →
    ((∀ x, i ≠ .ldB x) → (∀ x, i ≠ .storeRegs x) → SameBytes s t) ∧
    (i ≠ .cls → (∀ x y n, i ≠ .drw x y n) → SameDisplay s t) ∧
    (s.changed = true → t.changed = true) ∧
    (i ≠ .ret → (∀ nnn, i ≠ .call nnn) → SameStack s t) ∧
    ((∀ nnn, i ≠ .ldI nnn) → (∀ x, i ≠ .addI x) → (∀ x, i ≠ .ldF x) → (∀ x, i ≠ .storeRegs x) →
      (∀ x, i ≠ .loadRegs x) → t.index = s.index)

/-- Which instructions write the timers and the latch; no instruction writes a key, an accumulator, the
instruction timer or the configuration (R29, R32, R219 (6), R253). -/
def Obligations.DeviceWriters : Prop :=
  ∀ (i : Instr) (s t : State), exec i s = .next t →
    t.cfg = s.cfg ∧ t.keys = s.keys ∧ t.instrTimer = s.instrTimer ∧
    t.delayTimer.acc = s.delayTimer.acc ∧ t.soundTimer.acc = s.soundTimer.acc ∧
    t.vsyncTimer.acc = s.vsyncTimer.acc ∧
    ((∀ x, i ≠ .ldDtVx x) → t.dt = s.dt) ∧ ((∀ x, i ≠ .ldStVx x) → t.st = s.st) ∧
    ((∀ x y n, i ≠ .drw x y n) → t.vs = s.vs) ∧
    ((∀ x, i ≠ .ldVxK x) → t.haltLatch = s.haltLatch)

/-- Which instruction raises which fault: a run state that an instruction makes a fault is one of the rows of
R260. -/
def Obligations.FaultsComeFromTheirInstructions : Prop :=
  ∀ (i : Instr) (s t : State) (f : Fault), exec i s = .next t → s.runState = .running →
    t.runState = .haltedOnFault f →
    (f = .stackUnderflow ∧ i = .ret) ∨ (f = .stackOverflow ∧ ∃ nnn, i = .call nnn) ∨
    (∃ x, f = .invalidKey (s.reg x).toNat ∧ 15 < (s.reg x).toNat ∧ (i = .skp x ∨ i = .sknp x)) ∨
    (∃ a, f = .outOfBounds a ∧ s.cfg.memSize ≤ a ∧
      ((∃ x y n, i = .drw x y n) ∨ (∃ x, i = .ldB x) ∨ (∃ x, i = .storeRegs x) ∨
        ∃ x, i = .loadRegs x))

/-- No instruction reads the sound timer, and only DXYN looks at the vsync timer: from states that differ in
that timer alone, an instruction leaves states that differ in it alone (R29, R219 (6), R253). -/
def Obligations.TimersAreNotReadByOthers : Prop :=
  ∀ (i : Instr) (s t : State) (other : Timer), exec i s = .next t →
    (∃ left, exec i { s with soundTimer := other } = .next { t with soundTimer := left }) ∧
    ((∀ x y n, i ≠ .drw x y n) →
      exec i { s with vsyncTimer := other } = .next { t with vsyncTimer := other })
end

