-- ==== Sys2Proof/Laws/Decode.lean ====
section
/-!
SUPPORT. The fields of an instruction word as arithmetic, the words of the formats, and the masks of the
opcode map as arithmetic (spec/30_encoding.md R92, R93, R100).
-/
namespace Sys2Proof

/-! ### Fields -/

theorem nibble3_eq (w : Word) : nibble3 w = w.toNat / 4096 := by
  have := w.isLt
  simp [nibble3, Nat.shiftRight_eq_div_pow]; omega

theorem nibble0_eq (w : Word) : nibble0 w = w.toNat % 16 := by simp [nibble0]

theorem fieldN_eq (w : Word) : fieldN w = w.toNat % 16 := by simp [fieldN]

theorem fieldX_val (w : Word) : (fieldX w).val = w.toNat / 256 % 16 := by
  simp [fieldX, Nat.shiftRight_eq_div_pow]

theorem fieldY_val (w : Word) : (fieldY w).val = w.toNat / 16 % 16 := by
  simp [fieldY, Nat.shiftRight_eq_div_pow]

theorem fieldKK_toNat (w : Word) : (fieldKK w).toNat = w.toNat % 256 := by simp [fieldKK]

theorem fieldNNN_toNat (w : Word) : (fieldNNN w).toNat = w.toNat % 4096 := by
  have : w.toNat % 4096 < 65536 := by omega
  simp [fieldNNN, Nat.mod_eq_of_lt this]

/-! ### Formats -/

theorem formatA_toNat {n3 : Nat} {nnn : Word} (h3 : n3 < 16) (h : nnn.toNat < 4096) :
    (formatA n3 nnn).toNat = n3 * 4096 + nnn.toNat := by
  simp only [formatA, BitVec.toNat_ofNat]; omega

theorem formatXK_toNat {n3 : Nat} (h3 : n3 < 16) (x : Reg) (kk : Byte) :
    (formatXK n3 x kk).toNat = n3 * 4096 + x.val * 256 + kk.toNat := by
  have := x.isLt; have := kk.isLt
  simp only [formatXK, BitVec.toNat_ofNat]; omega

theorem formatXYN_toNat {n3 n0 : Nat} (h3 : n3 < 16) (h0 : n0 < 16) (x y : Reg) :
    (formatXYN n3 x y n0).toNat = n3 * 4096 + x.val * 256 + y.val * 16 + n0 := by
  have := x.isLt; have := y.isLt
  simp only [formatXYN, BitVec.toNat_ofNat]; omega

theorem formatXF_toNat {n3 low : Nat} (h3 : n3 < 16) (hl : low < 256) (x : Reg) :
    (formatXF n3 x low).toNat = n3 * 4096 + x.val * 256 + low := by
  have := x.isLt
  simp only [formatXF, BitVec.toNat_ofNat]; omega

/-! ### Masks -/

/-- The low `k` bits of a word, as a word. -/
theorem lowBits_toNat (w : Word) {k : Nat} (hk : k ≤ 16) :
    ((w.setWidth k).setWidth 16).toNat = w.toNat % 2 ^ k := by
  have h1 : w.toNat % 2 ^ k < 2 ^ k := Nat.mod_lt _ (by positivity)
  have h2 : 2 ^ k ≤ 2 ^ 16 := Nat.pow_le_pow_right (by norm_num) hk
  simp only [BitVec.toNat_setWidth]
  exact Nat.mod_eq_of_lt (by omega)

/-- The top four bits of a word, in place. -/
theorem highBits_toNat (w : Word) : ((w >>> 12) <<< 12).toNat = w.toNat / 4096 * 4096 := by
  have hw := w.isLt
  simp [Nat.shiftRight_eq_div_pow, Nat.shiftLeft_eq]
  omega

/-- The top four bits and the low bits of a word lie apart. -/
theorem high_add_low_toNat (w : Word) {k : Nat} (hk : k ≤ 12) :
    (((w >>> 12) <<< 12) + (w.setWidth k).setWidth 16).toNat =
      w.toNat / 4096 * 4096 + w.toNat % 2 ^ k := by
  have hw := w.isLt
  have h1 : w.toNat % 2 ^ k < 2 ^ k := Nat.mod_lt _ (by positivity)
  have h2 : 2 ^ k ≤ 2 ^ 12 := Nat.pow_le_pow_right (by norm_num) hk
  rw [BitVec.toNat_add, highBits_toNat, lowBits_toNat w (by omega)]
  omega

/-- A mask that keeps bits 15 to 12. -/
theorem and_F000 (w : Word) : (w &&& (0xF000 : Word)).toNat = w.toNat / 4096 * 4096 := by
  rw [← highBits_toNat]
  congr 1
  ext i hi
  interval_cases i <;> simp

/-- A mask that keeps bits 15 to 12 and 3 to 0. -/
theorem and_F00F (w : Word) :
    (w &&& (0xF00F : Word)).toNat = w.toNat / 4096 * 4096 + w.toNat % 16 := by
  rw [show w.toNat % 16 = w.toNat % 2 ^ 4 from rfl, ← high_add_low_toNat w (by norm_num),
    BitVec.add_eq_or_of_and_eq_zero _ _ (by ext i hi; interval_cases i <;> simp)]
  congr 1
  ext i hi
  interval_cases i <;> simp

/-- A mask that keeps bits 15 to 12 and 7 to 0. -/
theorem and_F0FF (w : Word) :
    (w &&& (0xF0FF : Word)).toNat = w.toNat / 4096 * 4096 + w.toNat % 256 := by
  rw [show w.toNat % 256 = w.toNat % 2 ^ 8 from rfl, ← high_add_low_toNat w (by norm_num),
    BitVec.add_eq_or_of_and_eq_zero _ _ (by ext i hi; interval_cases i <;> simp)]
  congr 1
  ext i hi
  interval_cases i <;> simp

/-- A mask that keeps every bit. -/
theorem and_FFFF (w : Word) : w &&& (0xFFFF : Word) = w := by
  ext i hi
  interval_cases i <;> simp

end Sys2Proof
end

