-- ==== Sys2Proof/Laws/State.lean ====
section
/-!
SUPPORT. One lemma for each field of the state under each update, so that no proof unfolds a record
update; and the composite operations as updates.
-/
namespace Sys2Proof.Machine

variable (s : State)

@[simp] theorem Timer.set_acc (t : Timer) (b : Byte) : (t.set b).acc = t.acc := rfl
@[simp] theorem Timer.set_value (t : Timer) (b : Byte) : (t.set b).value = b := rfl

/-! ### `setReg` -/

@[simp] theorem State.setReg_cfg (r : Reg) (b : Byte) : (s.setReg r b).cfg = s.cfg := rfl
@[simp] theorem State.setReg_mem (r : Reg) (b : Byte) : (s.setReg r b).mem = s.mem := rfl
@[simp] theorem State.setReg_regs (r : Reg) (b : Byte) : (s.setReg r b).regs = s.regs.set r b := rfl
@[simp] theorem State.setReg_index (r : Reg) (b : Byte) : (s.setReg r b).index = s.index := rfl
@[simp] theorem State.setReg_pc (r : Reg) (b : Byte) : (s.setReg r b).pc = s.pc := rfl
@[simp] theorem State.setReg_stack (r : Reg) (b : Byte) : (s.setReg r b).stack = s.stack := rfl
@[simp] theorem State.setReg_sp (r : Reg) (b : Byte) : (s.setReg r b).sp = s.sp := rfl
@[simp] theorem State.setReg_runState (r : Reg) (b : Byte) : (s.setReg r b).runState = s.runState := rfl
@[simp] theorem State.setReg_delayTimer (r : Reg) (b : Byte) : (s.setReg r b).delayTimer = s.delayTimer := rfl
@[simp] theorem State.setReg_soundTimer (r : Reg) (b : Byte) : (s.setReg r b).soundTimer = s.soundTimer := rfl
@[simp] theorem State.setReg_vsyncTimer (r : Reg) (b : Byte) : (s.setReg r b).vsyncTimer = s.vsyncTimer := rfl
@[simp] theorem State.setReg_instrTimer (r : Reg) (b : Byte) : (s.setReg r b).instrTimer = s.instrTimer := rfl
@[simp] theorem State.setReg_bitgrid (r : Reg) (b : Byte) : (s.setReg r b).bitgrid = s.bitgrid := rfl
@[simp] theorem State.setReg_changed (r : Reg) (b : Byte) : (s.setReg r b).changed = s.changed := rfl
@[simp] theorem State.setReg_keys (r : Reg) (b : Byte) : (s.setReg r b).keys = s.keys := rfl
@[simp] theorem State.setReg_haltLatch (r : Reg) (b : Byte) : (s.setReg r b).haltLatch = s.haltLatch := rfl
@[simp] theorem State.setReg_started (r : Reg) (b : Byte) : (s.setReg r b).started = s.started := rfl
@[simp] theorem State.setReg_rands (r : Reg) (b : Byte) : (s.setReg r b).rands = s.rands := rfl

/-! ### `setIndex` -/

@[simp] theorem State.setIndex_cfg (w : Word) : (s.setIndex w).cfg = s.cfg := rfl
@[simp] theorem State.setIndex_mem (w : Word) : (s.setIndex w).mem = s.mem := rfl
@[simp] theorem State.setIndex_regs (w : Word) : (s.setIndex w).regs = s.regs := rfl
@[simp] theorem State.setIndex_index (w : Word) : (s.setIndex w).index = w := rfl
@[simp] theorem State.setIndex_pc (w : Word) : (s.setIndex w).pc = s.pc := rfl
@[simp] theorem State.setIndex_stack (w : Word) : (s.setIndex w).stack = s.stack := rfl
@[simp] theorem State.setIndex_sp (w : Word) : (s.setIndex w).sp = s.sp := rfl
@[simp] theorem State.setIndex_runState (w : Word) : (s.setIndex w).runState = s.runState := rfl
@[simp] theorem State.setIndex_delayTimer (w : Word) : (s.setIndex w).delayTimer = s.delayTimer := rfl
@[simp] theorem State.setIndex_soundTimer (w : Word) : (s.setIndex w).soundTimer = s.soundTimer := rfl
@[simp] theorem State.setIndex_vsyncTimer (w : Word) : (s.setIndex w).vsyncTimer = s.vsyncTimer := rfl
@[simp] theorem State.setIndex_instrTimer (w : Word) : (s.setIndex w).instrTimer = s.instrTimer := rfl
@[simp] theorem State.setIndex_bitgrid (w : Word) : (s.setIndex w).bitgrid = s.bitgrid := rfl
@[simp] theorem State.setIndex_changed (w : Word) : (s.setIndex w).changed = s.changed := rfl
@[simp] theorem State.setIndex_keys (w : Word) : (s.setIndex w).keys = s.keys := rfl
@[simp] theorem State.setIndex_haltLatch (w : Word) : (s.setIndex w).haltLatch = s.haltLatch := rfl
@[simp] theorem State.setIndex_started (w : Word) : (s.setIndex w).started = s.started := rfl
@[simp] theorem State.setIndex_rands (w : Word) : (s.setIndex w).rands = s.rands := rfl

/-! ### `setPc` -/

@[simp] theorem State.setPc_cfg (w : Word) : (s.setPc w).cfg = s.cfg := rfl
@[simp] theorem State.setPc_mem (w : Word) : (s.setPc w).mem = s.mem := rfl
@[simp] theorem State.setPc_regs (w : Word) : (s.setPc w).regs = s.regs := rfl
@[simp] theorem State.setPc_index (w : Word) : (s.setPc w).index = s.index := rfl
@[simp] theorem State.setPc_pc (w : Word) : (s.setPc w).pc = w := rfl
@[simp] theorem State.setPc_stack (w : Word) : (s.setPc w).stack = s.stack := rfl
@[simp] theorem State.setPc_sp (w : Word) : (s.setPc w).sp = s.sp := rfl
@[simp] theorem State.setPc_runState (w : Word) : (s.setPc w).runState = s.runState := rfl
@[simp] theorem State.setPc_delayTimer (w : Word) : (s.setPc w).delayTimer = s.delayTimer := rfl
@[simp] theorem State.setPc_soundTimer (w : Word) : (s.setPc w).soundTimer = s.soundTimer := rfl
@[simp] theorem State.setPc_vsyncTimer (w : Word) : (s.setPc w).vsyncTimer = s.vsyncTimer := rfl
@[simp] theorem State.setPc_instrTimer (w : Word) : (s.setPc w).instrTimer = s.instrTimer := rfl
@[simp] theorem State.setPc_bitgrid (w : Word) : (s.setPc w).bitgrid = s.bitgrid := rfl
@[simp] theorem State.setPc_changed (w : Word) : (s.setPc w).changed = s.changed := rfl
@[simp] theorem State.setPc_keys (w : Word) : (s.setPc w).keys = s.keys := rfl
@[simp] theorem State.setPc_haltLatch (w : Word) : (s.setPc w).haltLatch = s.haltLatch := rfl
@[simp] theorem State.setPc_started (w : Word) : (s.setPc w).started = s.started := rfl
@[simp] theorem State.setPc_rands (w : Word) : (s.setPc w).rands = s.rands := rfl

/-! ### `setStack` -/

@[simp] theorem State.setStack_cfg (v : Vector Word 16) (n : Fin 17) : (s.setStack v n).cfg = s.cfg := rfl
@[simp] theorem State.setStack_mem (v : Vector Word 16) (n : Fin 17) : (s.setStack v n).mem = s.mem := rfl
@[simp] theorem State.setStack_regs (v : Vector Word 16) (n : Fin 17) : (s.setStack v n).regs = s.regs := rfl
@[simp] theorem State.setStack_index (v : Vector Word 16) (n : Fin 17) : (s.setStack v n).index = s.index := rfl
@[simp] theorem State.setStack_pc (v : Vector Word 16) (n : Fin 17) : (s.setStack v n).pc = s.pc := rfl
@[simp] theorem State.setStack_stack (v : Vector Word 16) (n : Fin 17) : (s.setStack v n).stack = v := rfl
@[simp] theorem State.setStack_sp (v : Vector Word 16) (n : Fin 17) : (s.setStack v n).sp = n := rfl
@[simp] theorem State.setStack_runState (v : Vector Word 16) (n : Fin 17) : (s.setStack v n).runState = s.runState := rfl
@[simp] theorem State.setStack_delayTimer (v : Vector Word 16) (n : Fin 17) : (s.setStack v n).delayTimer = s.delayTimer := rfl
@[simp] theorem State.setStack_soundTimer (v : Vector Word 16) (n : Fin 17) : (s.setStack v n).soundTimer = s.soundTimer := rfl
@[simp] theorem State.setStack_vsyncTimer (v : Vector Word 16) (n : Fin 17) : (s.setStack v n).vsyncTimer = s.vsyncTimer := rfl
@[simp] theorem State.setStack_instrTimer (v : Vector Word 16) (n : Fin 17) : (s.setStack v n).instrTimer = s.instrTimer := rfl
@[simp] theorem State.setStack_bitgrid (v : Vector Word 16) (n : Fin 17) : (s.setStack v n).bitgrid = s.bitgrid := rfl
@[simp] theorem State.setStack_changed (v : Vector Word 16) (n : Fin 17) : (s.setStack v n).changed = s.changed := rfl
@[simp] theorem State.setStack_keys (v : Vector Word 16) (n : Fin 17) : (s.setStack v n).keys = s.keys := rfl
@[simp] theorem State.setStack_haltLatch (v : Vector Word 16) (n : Fin 17) : (s.setStack v n).haltLatch = s.haltLatch := rfl
@[simp] theorem State.setStack_started (v : Vector Word 16) (n : Fin 17) : (s.setStack v n).started = s.started := rfl
@[simp] theorem State.setStack_rands (v : Vector Word 16) (n : Fin 17) : (s.setStack v n).rands = s.rands := rfl

/-! ### `setRunState` -/

@[simp] theorem State.setRunState_cfg (r : RunState) : (s.setRunState r).cfg = s.cfg := rfl
@[simp] theorem State.setRunState_mem (r : RunState) : (s.setRunState r).mem = s.mem := rfl
@[simp] theorem State.setRunState_regs (r : RunState) : (s.setRunState r).regs = s.regs := rfl
@[simp] theorem State.setRunState_index (r : RunState) : (s.setRunState r).index = s.index := rfl
@[simp] theorem State.setRunState_pc (r : RunState) : (s.setRunState r).pc = s.pc := rfl
@[simp] theorem State.setRunState_stack (r : RunState) : (s.setRunState r).stack = s.stack := rfl
@[simp] theorem State.setRunState_sp (r : RunState) : (s.setRunState r).sp = s.sp := rfl
@[simp] theorem State.setRunState_runState (r : RunState) : (s.setRunState r).runState = r := rfl
@[simp] theorem State.setRunState_delayTimer (r : RunState) : (s.setRunState r).delayTimer = s.delayTimer := rfl
@[simp] theorem State.setRunState_soundTimer (r : RunState) : (s.setRunState r).soundTimer = s.soundTimer := rfl
@[simp] theorem State.setRunState_vsyncTimer (r : RunState) : (s.setRunState r).vsyncTimer = s.vsyncTimer := rfl
@[simp] theorem State.setRunState_instrTimer (r : RunState) : (s.setRunState r).instrTimer = s.instrTimer := rfl
@[simp] theorem State.setRunState_bitgrid (r : RunState) : (s.setRunState r).bitgrid = s.bitgrid := rfl
@[simp] theorem State.setRunState_changed (r : RunState) : (s.setRunState r).changed = s.changed := rfl
@[simp] theorem State.setRunState_keys (r : RunState) : (s.setRunState r).keys = s.keys := rfl
@[simp] theorem State.setRunState_haltLatch (r : RunState) : (s.setRunState r).haltLatch = s.haltLatch := rfl
@[simp] theorem State.setRunState_started (r : RunState) : (s.setRunState r).started = s.started := rfl
@[simp] theorem State.setRunState_rands (r : RunState) : (s.setRunState r).rands = s.rands := rfl

/-! ### `setMem` -/

@[simp] theorem State.setMem_cfg (m : Memory) : (s.setMem m).cfg = s.cfg := rfl
@[simp] theorem State.setMem_mem (m : Memory) : (s.setMem m).mem = m := rfl
@[simp] theorem State.setMem_regs (m : Memory) : (s.setMem m).regs = s.regs := rfl
@[simp] theorem State.setMem_index (m : Memory) : (s.setMem m).index = s.index := rfl
@[simp] theorem State.setMem_pc (m : Memory) : (s.setMem m).pc = s.pc := rfl
@[simp] theorem State.setMem_stack (m : Memory) : (s.setMem m).stack = s.stack := rfl
@[simp] theorem State.setMem_sp (m : Memory) : (s.setMem m).sp = s.sp := rfl
@[simp] theorem State.setMem_runState (m : Memory) : (s.setMem m).runState = s.runState := rfl
@[simp] theorem State.setMem_delayTimer (m : Memory) : (s.setMem m).delayTimer = s.delayTimer := rfl
@[simp] theorem State.setMem_soundTimer (m : Memory) : (s.setMem m).soundTimer = s.soundTimer := rfl
@[simp] theorem State.setMem_vsyncTimer (m : Memory) : (s.setMem m).vsyncTimer = s.vsyncTimer := rfl
@[simp] theorem State.setMem_instrTimer (m : Memory) : (s.setMem m).instrTimer = s.instrTimer := rfl
@[simp] theorem State.setMem_bitgrid (m : Memory) : (s.setMem m).bitgrid = s.bitgrid := rfl
@[simp] theorem State.setMem_changed (m : Memory) : (s.setMem m).changed = s.changed := rfl
@[simp] theorem State.setMem_keys (m : Memory) : (s.setMem m).keys = s.keys := rfl
@[simp] theorem State.setMem_haltLatch (m : Memory) : (s.setMem m).haltLatch = s.haltLatch := rfl
@[simp] theorem State.setMem_started (m : Memory) : (s.setMem m).started = s.started := rfl
@[simp] theorem State.setMem_rands (m : Memory) : (s.setMem m).rands = s.rands := rfl

/-! ### `setDT` -/

@[simp] theorem State.setDT_cfg (b : Byte) : (s.setDT b).cfg = s.cfg := rfl
@[simp] theorem State.setDT_mem (b : Byte) : (s.setDT b).mem = s.mem := rfl
@[simp] theorem State.setDT_regs (b : Byte) : (s.setDT b).regs = s.regs := rfl
@[simp] theorem State.setDT_index (b : Byte) : (s.setDT b).index = s.index := rfl
@[simp] theorem State.setDT_pc (b : Byte) : (s.setDT b).pc = s.pc := rfl
@[simp] theorem State.setDT_stack (b : Byte) : (s.setDT b).stack = s.stack := rfl
@[simp] theorem State.setDT_sp (b : Byte) : (s.setDT b).sp = s.sp := rfl
@[simp] theorem State.setDT_runState (b : Byte) : (s.setDT b).runState = s.runState := rfl
@[simp] theorem State.setDT_delayTimer (b : Byte) : (s.setDT b).delayTimer = s.delayTimer.set b := rfl
@[simp] theorem State.setDT_soundTimer (b : Byte) : (s.setDT b).soundTimer = s.soundTimer := rfl
@[simp] theorem State.setDT_vsyncTimer (b : Byte) : (s.setDT b).vsyncTimer = s.vsyncTimer := rfl
@[simp] theorem State.setDT_instrTimer (b : Byte) : (s.setDT b).instrTimer = s.instrTimer := rfl
@[simp] theorem State.setDT_bitgrid (b : Byte) : (s.setDT b).bitgrid = s.bitgrid := rfl
@[simp] theorem State.setDT_changed (b : Byte) : (s.setDT b).changed = s.changed := rfl
@[simp] theorem State.setDT_keys (b : Byte) : (s.setDT b).keys = s.keys := rfl
@[simp] theorem State.setDT_haltLatch (b : Byte) : (s.setDT b).haltLatch = s.haltLatch := rfl
@[simp] theorem State.setDT_started (b : Byte) : (s.setDT b).started = s.started := rfl
@[simp] theorem State.setDT_rands (b : Byte) : (s.setDT b).rands = s.rands := rfl

/-! ### `setST` -/

@[simp] theorem State.setST_cfg (b : Byte) : (s.setST b).cfg = s.cfg := rfl
@[simp] theorem State.setST_mem (b : Byte) : (s.setST b).mem = s.mem := rfl
@[simp] theorem State.setST_regs (b : Byte) : (s.setST b).regs = s.regs := rfl
@[simp] theorem State.setST_index (b : Byte) : (s.setST b).index = s.index := rfl
@[simp] theorem State.setST_pc (b : Byte) : (s.setST b).pc = s.pc := rfl
@[simp] theorem State.setST_stack (b : Byte) : (s.setST b).stack = s.stack := rfl
@[simp] theorem State.setST_sp (b : Byte) : (s.setST b).sp = s.sp := rfl
@[simp] theorem State.setST_runState (b : Byte) : (s.setST b).runState = s.runState := rfl
@[simp] theorem State.setST_delayTimer (b : Byte) : (s.setST b).delayTimer = s.delayTimer := rfl
@[simp] theorem State.setST_soundTimer (b : Byte) : (s.setST b).soundTimer = s.soundTimer.set b := rfl
@[simp] theorem State.setST_vsyncTimer (b : Byte) : (s.setST b).vsyncTimer = s.vsyncTimer := rfl
@[simp] theorem State.setST_instrTimer (b : Byte) : (s.setST b).instrTimer = s.instrTimer := rfl
@[simp] theorem State.setST_bitgrid (b : Byte) : (s.setST b).bitgrid = s.bitgrid := rfl
@[simp] theorem State.setST_changed (b : Byte) : (s.setST b).changed = s.changed := rfl
@[simp] theorem State.setST_keys (b : Byte) : (s.setST b).keys = s.keys := rfl
@[simp] theorem State.setST_haltLatch (b : Byte) : (s.setST b).haltLatch = s.haltLatch := rfl
@[simp] theorem State.setST_started (b : Byte) : (s.setST b).started = s.started := rfl
@[simp] theorem State.setST_rands (b : Byte) : (s.setST b).rands = s.rands := rfl

/-! ### `setVS` -/

@[simp] theorem State.setVS_cfg (b : Byte) : (s.setVS b).cfg = s.cfg := rfl
@[simp] theorem State.setVS_mem (b : Byte) : (s.setVS b).mem = s.mem := rfl
@[simp] theorem State.setVS_regs (b : Byte) : (s.setVS b).regs = s.regs := rfl
@[simp] theorem State.setVS_index (b : Byte) : (s.setVS b).index = s.index := rfl
@[simp] theorem State.setVS_pc (b : Byte) : (s.setVS b).pc = s.pc := rfl
@[simp] theorem State.setVS_stack (b : Byte) : (s.setVS b).stack = s.stack := rfl
@[simp] theorem State.setVS_sp (b : Byte) : (s.setVS b).sp = s.sp := rfl
@[simp] theorem State.setVS_runState (b : Byte) : (s.setVS b).runState = s.runState := rfl
@[simp] theorem State.setVS_delayTimer (b : Byte) : (s.setVS b).delayTimer = s.delayTimer := rfl
@[simp] theorem State.setVS_soundTimer (b : Byte) : (s.setVS b).soundTimer = s.soundTimer := rfl
@[simp] theorem State.setVS_vsyncTimer (b : Byte) : (s.setVS b).vsyncTimer = s.vsyncTimer.set b := rfl
@[simp] theorem State.setVS_instrTimer (b : Byte) : (s.setVS b).instrTimer = s.instrTimer := rfl
@[simp] theorem State.setVS_bitgrid (b : Byte) : (s.setVS b).bitgrid = s.bitgrid := rfl
@[simp] theorem State.setVS_changed (b : Byte) : (s.setVS b).changed = s.changed := rfl
@[simp] theorem State.setVS_keys (b : Byte) : (s.setVS b).keys = s.keys := rfl
@[simp] theorem State.setVS_haltLatch (b : Byte) : (s.setVS b).haltLatch = s.haltLatch := rfl
@[simp] theorem State.setVS_started (b : Byte) : (s.setVS b).started = s.started := rfl
@[simp] theorem State.setVS_rands (b : Byte) : (s.setVS b).rands = s.rands := rfl

/-! ### `setGrid` -/

@[simp] theorem State.setGrid_cfg (g : List Byte) : (s.setGrid g).cfg = s.cfg := rfl
@[simp] theorem State.setGrid_mem (g : List Byte) : (s.setGrid g).mem = s.mem := rfl
@[simp] theorem State.setGrid_regs (g : List Byte) : (s.setGrid g).regs = s.regs := rfl
@[simp] theorem State.setGrid_index (g : List Byte) : (s.setGrid g).index = s.index := rfl
@[simp] theorem State.setGrid_pc (g : List Byte) : (s.setGrid g).pc = s.pc := rfl
@[simp] theorem State.setGrid_stack (g : List Byte) : (s.setGrid g).stack = s.stack := rfl
@[simp] theorem State.setGrid_sp (g : List Byte) : (s.setGrid g).sp = s.sp := rfl
@[simp] theorem State.setGrid_runState (g : List Byte) : (s.setGrid g).runState = s.runState := rfl
@[simp] theorem State.setGrid_delayTimer (g : List Byte) : (s.setGrid g).delayTimer = s.delayTimer := rfl
@[simp] theorem State.setGrid_soundTimer (g : List Byte) : (s.setGrid g).soundTimer = s.soundTimer := rfl
@[simp] theorem State.setGrid_vsyncTimer (g : List Byte) : (s.setGrid g).vsyncTimer = s.vsyncTimer := rfl
@[simp] theorem State.setGrid_instrTimer (g : List Byte) : (s.setGrid g).instrTimer = s.instrTimer := rfl
@[simp] theorem State.setGrid_bitgrid (g : List Byte) : (s.setGrid g).bitgrid = g := rfl
@[simp] theorem State.setGrid_changed (g : List Byte) : (s.setGrid g).changed = s.changed := rfl
@[simp] theorem State.setGrid_keys (g : List Byte) : (s.setGrid g).keys = s.keys := rfl
@[simp] theorem State.setGrid_haltLatch (g : List Byte) : (s.setGrid g).haltLatch = s.haltLatch := rfl
@[simp] theorem State.setGrid_started (g : List Byte) : (s.setGrid g).started = s.started := rfl
@[simp] theorem State.setGrid_rands (g : List Byte) : (s.setGrid g).rands = s.rands := rfl

/-! ### `setChanged` -/

@[simp] theorem State.setChanged_cfg (b : Bool) : (s.setChanged b).cfg = s.cfg := rfl
@[simp] theorem State.setChanged_mem (b : Bool) : (s.setChanged b).mem = s.mem := rfl
@[simp] theorem State.setChanged_regs (b : Bool) : (s.setChanged b).regs = s.regs := rfl
@[simp] theorem State.setChanged_index (b : Bool) : (s.setChanged b).index = s.index := rfl
@[simp] theorem State.setChanged_pc (b : Bool) : (s.setChanged b).pc = s.pc := rfl
@[simp] theorem State.setChanged_stack (b : Bool) : (s.setChanged b).stack = s.stack := rfl
@[simp] theorem State.setChanged_sp (b : Bool) : (s.setChanged b).sp = s.sp := rfl
@[simp] theorem State.setChanged_runState (b : Bool) : (s.setChanged b).runState = s.runState := rfl
@[simp] theorem State.setChanged_delayTimer (b : Bool) : (s.setChanged b).delayTimer = s.delayTimer := rfl
@[simp] theorem State.setChanged_soundTimer (b : Bool) : (s.setChanged b).soundTimer = s.soundTimer := rfl
@[simp] theorem State.setChanged_vsyncTimer (b : Bool) : (s.setChanged b).vsyncTimer = s.vsyncTimer := rfl
@[simp] theorem State.setChanged_instrTimer (b : Bool) : (s.setChanged b).instrTimer = s.instrTimer := rfl
@[simp] theorem State.setChanged_bitgrid (b : Bool) : (s.setChanged b).bitgrid = s.bitgrid := rfl
@[simp] theorem State.setChanged_changed (b : Bool) : (s.setChanged b).changed = b := rfl
@[simp] theorem State.setChanged_keys (b : Bool) : (s.setChanged b).keys = s.keys := rfl
@[simp] theorem State.setChanged_haltLatch (b : Bool) : (s.setChanged b).haltLatch = s.haltLatch := rfl
@[simp] theorem State.setChanged_started (b : Bool) : (s.setChanged b).started = s.started := rfl
@[simp] theorem State.setChanged_rands (b : Bool) : (s.setChanged b).rands = s.rands := rfl

/-! ### `setLatch` -/

@[simp] theorem State.setLatch_cfg (b : Bool) : (s.setLatch b).cfg = s.cfg := rfl
@[simp] theorem State.setLatch_mem (b : Bool) : (s.setLatch b).mem = s.mem := rfl
@[simp] theorem State.setLatch_regs (b : Bool) : (s.setLatch b).regs = s.regs := rfl
@[simp] theorem State.setLatch_index (b : Bool) : (s.setLatch b).index = s.index := rfl
@[simp] theorem State.setLatch_pc (b : Bool) : (s.setLatch b).pc = s.pc := rfl
@[simp] theorem State.setLatch_stack (b : Bool) : (s.setLatch b).stack = s.stack := rfl
@[simp] theorem State.setLatch_sp (b : Bool) : (s.setLatch b).sp = s.sp := rfl
@[simp] theorem State.setLatch_runState (b : Bool) : (s.setLatch b).runState = s.runState := rfl
@[simp] theorem State.setLatch_delayTimer (b : Bool) : (s.setLatch b).delayTimer = s.delayTimer := rfl
@[simp] theorem State.setLatch_soundTimer (b : Bool) : (s.setLatch b).soundTimer = s.soundTimer := rfl
@[simp] theorem State.setLatch_vsyncTimer (b : Bool) : (s.setLatch b).vsyncTimer = s.vsyncTimer := rfl
@[simp] theorem State.setLatch_instrTimer (b : Bool) : (s.setLatch b).instrTimer = s.instrTimer := rfl
@[simp] theorem State.setLatch_bitgrid (b : Bool) : (s.setLatch b).bitgrid = s.bitgrid := rfl
@[simp] theorem State.setLatch_changed (b : Bool) : (s.setLatch b).changed = s.changed := rfl
@[simp] theorem State.setLatch_keys (b : Bool) : (s.setLatch b).keys = s.keys := rfl
@[simp] theorem State.setLatch_haltLatch (b : Bool) : (s.setLatch b).haltLatch = b := rfl
@[simp] theorem State.setLatch_started (b : Bool) : (s.setLatch b).started = s.started := rfl
@[simp] theorem State.setLatch_rands (b : Bool) : (s.setLatch b).rands = s.rands := rfl

/-! ### `setKeys` -/

@[simp] theorem State.setKeys_cfg (k : BitVec 16) : (s.setKeys k).cfg = s.cfg := rfl
@[simp] theorem State.setKeys_mem (k : BitVec 16) : (s.setKeys k).mem = s.mem := rfl
@[simp] theorem State.setKeys_regs (k : BitVec 16) : (s.setKeys k).regs = s.regs := rfl
@[simp] theorem State.setKeys_index (k : BitVec 16) : (s.setKeys k).index = s.index := rfl
@[simp] theorem State.setKeys_pc (k : BitVec 16) : (s.setKeys k).pc = s.pc := rfl
@[simp] theorem State.setKeys_stack (k : BitVec 16) : (s.setKeys k).stack = s.stack := rfl
@[simp] theorem State.setKeys_sp (k : BitVec 16) : (s.setKeys k).sp = s.sp := rfl
@[simp] theorem State.setKeys_runState (k : BitVec 16) : (s.setKeys k).runState = s.runState := rfl
@[simp] theorem State.setKeys_delayTimer (k : BitVec 16) : (s.setKeys k).delayTimer = s.delayTimer := rfl
@[simp] theorem State.setKeys_soundTimer (k : BitVec 16) : (s.setKeys k).soundTimer = s.soundTimer := rfl
@[simp] theorem State.setKeys_vsyncTimer (k : BitVec 16) : (s.setKeys k).vsyncTimer = s.vsyncTimer := rfl
@[simp] theorem State.setKeys_instrTimer (k : BitVec 16) : (s.setKeys k).instrTimer = s.instrTimer := rfl
@[simp] theorem State.setKeys_bitgrid (k : BitVec 16) : (s.setKeys k).bitgrid = s.bitgrid := rfl
@[simp] theorem State.setKeys_changed (k : BitVec 16) : (s.setKeys k).changed = s.changed := rfl
@[simp] theorem State.setKeys_keys (k : BitVec 16) : (s.setKeys k).keys = k := rfl
@[simp] theorem State.setKeys_haltLatch (k : BitVec 16) : (s.setKeys k).haltLatch = s.haltLatch := rfl
@[simp] theorem State.setKeys_started (k : BitVec 16) : (s.setKeys k).started = s.started := rfl
@[simp] theorem State.setKeys_rands (k : BitVec 16) : (s.setKeys k).rands = s.rands := rfl

/-! ### `drawRand` -/

@[simp] theorem State.drawRand_cfg : s.drawRand.cfg = s.cfg := rfl
@[simp] theorem State.drawRand_mem : s.drawRand.mem = s.mem := rfl
@[simp] theorem State.drawRand_regs : s.drawRand.regs = s.regs := rfl
@[simp] theorem State.drawRand_index : s.drawRand.index = s.index := rfl
@[simp] theorem State.drawRand_pc : s.drawRand.pc = s.pc := rfl
@[simp] theorem State.drawRand_stack : s.drawRand.stack = s.stack := rfl
@[simp] theorem State.drawRand_sp : s.drawRand.sp = s.sp := rfl
@[simp] theorem State.drawRand_runState : s.drawRand.runState = s.runState := rfl
@[simp] theorem State.drawRand_delayTimer : s.drawRand.delayTimer = s.delayTimer := rfl
@[simp] theorem State.drawRand_soundTimer : s.drawRand.soundTimer = s.soundTimer := rfl
@[simp] theorem State.drawRand_vsyncTimer : s.drawRand.vsyncTimer = s.vsyncTimer := rfl
@[simp] theorem State.drawRand_instrTimer : s.drawRand.instrTimer = s.instrTimer := rfl
@[simp] theorem State.drawRand_bitgrid : s.drawRand.bitgrid = s.bitgrid := rfl
@[simp] theorem State.drawRand_changed : s.drawRand.changed = s.changed := rfl
@[simp] theorem State.drawRand_keys : s.drawRand.keys = s.keys := rfl
@[simp] theorem State.drawRand_haltLatch : s.drawRand.haltLatch = s.haltLatch := rfl
@[simp] theorem State.drawRand_started : s.drawRand.started = s.started := rfl
@[simp] theorem State.drawRand_rands : s.drawRand.rands = s.rands + 1 := rfl

/-! ### Composite operations -/

@[simp] theorem State.advance_eq : s.advance = s.setPc (s.pc + 2) := rfl
@[simp] theorem State.rewind_eq : s.rewind = s.setPc (s.pc - 2) := rfl
@[simp] theorem State.setFlag_eq (f : Bool) : s.setFlag f = s.setReg VF (flagByte f) := rfl
@[simp] theorem State.setRegFlag_eq (x : Reg) (b : Byte) (f : Bool) :
    s.setRegFlag x b f = (s.setReg x b).setReg VF (flagByte f) := rfl
@[simp] theorem State.finishDraw_eq (hit : Bool) :
    s.finishDraw hit = ((s.setReg VF (flagByte hit)).setVS 1).setChanged true := rfl

/-- A skip writes the program counter alone. -/
theorem State.skipIf_eq (c : Bool) : s.skipIf c = s.setPc (if c then s.pc + 2 else s.pc) := by
  cases c <;> rfl

@[simp] theorem flagByte_true : flagByte true = 1 := rfl
@[simp] theorem flagByte_false : flagByte false = 0 := rfl

/-- Raising a fault answers the next state in which only the run state changed. -/
@[simp] theorem raise_eq (f : Fault) : raise f s = .next (s.setRunState (.haltedOnFault f)) := rfl

/-! ### Reading a register after an update -/

@[simp] theorem State.reg_setReg_same (r : Reg) (b : Byte) : (s.setReg r b).reg r = b := by
  simp [State.reg]

theorem State.reg_setReg_other {r q : Reg} (h : q ≠ r) (b : Byte) : (s.setReg r b).reg q = s.reg q := by
  have hv : r.val ≠ q.val := fun e => h (Fin.ext e.symm)
  simp [State.reg, Vector.getElem_set_ne, hv]

/-- A register after a register write. -/
theorem State.reg_setReg (r q : Reg) (b : Byte) :
    (s.setReg r b).reg q = if q = r then b else s.reg q := by
  by_cases h : q = r
  · subst h; simp
  · rw [if_neg h, State.reg_setReg_other s h]

/-- A register after the write of a result and a flag (R180 (2)): the flag is written last. -/
theorem State.reg_setRegFlag (x q : Reg) (b : Byte) (f : Bool) :
    (s.setRegFlag x b f).reg q = if q = VF then flagByte f else if q = x then b else s.reg q := by
  rw [State.setRegFlag_eq, State.reg_setReg, State.reg_setReg]

/-- Writing what a register holds changes nothing. -/
theorem State.setReg_self (r : Reg) : s.setReg r (s.reg r) = s := by
  simp [State.setReg, State.reg]

/-! ### Two updates of one field -/

@[simp] theorem State.setGrid_setGrid (g h : List Byte) : (s.setGrid g).setGrid h = s.setGrid h := rfl
@[simp] theorem State.setGrid_self : s.setGrid s.bitgrid = s := rfl
@[simp] theorem State.setMem_setMem (m n : Memory) : (s.setMem m).setMem n = s.setMem n := rfl
@[simp] theorem State.setMem_self : s.setMem s.mem = s := rfl
@[simp] theorem State.setIndex_setIndex (v w : Word) : (s.setIndex v).setIndex w = s.setIndex w := rfl
@[simp] theorem State.setPc_setPc (v w : Word) : (s.setPc v).setPc w = s.setPc w := rfl
@[simp] theorem State.setPc_self : s.setPc s.pc = s := rfl

@[simp] theorem State.setIndex_reg (w : Word) (q : Reg) : (s.setIndex w).reg q = s.reg q := rfl
@[simp] theorem State.setPc_reg (w : Word) (q : Reg) : (s.setPc w).reg q = s.reg q := rfl
@[simp] theorem State.setStack_reg (v : Vector Word 16) (n : Fin 17) (q : Reg) : (s.setStack v n).reg q = s.reg q := rfl
@[simp] theorem State.setRunState_reg (r : RunState) (q : Reg) : (s.setRunState r).reg q = s.reg q := rfl
@[simp] theorem State.setMem_reg (m : Memory) (q : Reg) : (s.setMem m).reg q = s.reg q := rfl
@[simp] theorem State.setDT_reg (b : Byte) (q : Reg) : (s.setDT b).reg q = s.reg q := rfl
@[simp] theorem State.setST_reg (b : Byte) (q : Reg) : (s.setST b).reg q = s.reg q := rfl
@[simp] theorem State.setVS_reg (b : Byte) (q : Reg) : (s.setVS b).reg q = s.reg q := rfl
@[simp] theorem State.setGrid_reg (g : List Byte) (q : Reg) : (s.setGrid g).reg q = s.reg q := rfl
@[simp] theorem State.setChanged_reg (b : Bool) (q : Reg) : (s.setChanged b).reg q = s.reg q := rfl
@[simp] theorem State.setLatch_reg (b : Bool) (q : Reg) : (s.setLatch b).reg q = s.reg q := rfl
@[simp] theorem State.setKeys_reg (k : BitVec 16) (q : Reg) : (s.setKeys k).reg q = s.reg q := rfl
@[simp] theorem State.drawRand_reg (q : Reg) : s.drawRand.reg q = s.reg q := rfl

end Sys2Proof.Machine
end

