-- ==== Sys2Proof/Laws/Memory.lean ====
section
/-!
SUPPORT. Memory: a read after a write, the canonical form, and what the three access primitives can
answer (spec/20_memory.md R62 to R64).
-/
namespace Sys2Proof.Machine

/-! ### The list of cells -/

/-- Beyond the font an unlisted address reads as 0 (R36). -/
theorem unlistedByte_beyond_font {a : Nat} (h : 80 ≤ a) : unlistedByte a = 0 := by
  have hl : fontBytes.length ≤ a - Config.fontBase := h
  rw [unlistedByte, List.getD_eq_getElem?_getD, List.getElem?_eq_none hl]
  rfl

/-- Listing a byte at an address below every cell makes that address read as the byte. -/
theorem Memory.read_cons_same (m : Memory) (a : Nat) (b : Byte) (h : ∀ c ∈ m, a < c.1) :
    (Memory.cons a b m).read a = b := by
  have unlisted : ∀ m : Memory, (∀ c ∈ m, a < c.1) → m.read a = unlistedByte a := by
    intro m
    induction m with
    | nil => intro _; rfl
    | cons c m ih =>
      intro hm
      have hc : a < c.1 := hm c (by simp)
      simp [Memory.read, Nat.ne_of_lt hc, ih fun d hd => hm d (by simp [hd])]
  by_cases hb : b = unlistedByte a
  · simp [Memory.cons, hb, unlisted m h]
  · simp [Memory.cons, hb, Memory.read]

/-- Listing a byte leaves every other address alone. -/
theorem Memory.read_cons_other (m : Memory) {a q : Nat} (b : Byte) (h : q ≠ a) :
    (Memory.cons a b m).read q = m.read q := by
  by_cases hb : b = unlistedByte a
  · simp [Memory.cons, hb]
  · simp [Memory.cons, hb, Memory.read, h]

/-- A canonical memory without its first cell is canonical. -/
theorem Memory.Wf.tail {c : Host.Cell} {m : Memory} (h : Memory.Wf (c :: m)) : Memory.Wf m :=
  ⟨(List.pairwise_cons.1 h.1).2, fun d hd => h.2 d (by simp [hd])⟩

/-- The first cell of a canonical memory lies below the others. -/
theorem Memory.Wf.head_lt {c : Host.Cell} {m : Memory} (h : Memory.Wf (c :: m)) : ∀ d ∈ m, c.1 < d.1 :=
  (List.pairwise_cons.1 h.1).1

/-- The byte written is the byte read. -/
theorem Memory.read_write_same (m : Memory) (hm : Memory.Wf m) (a : Nat) (b : Byte) :
    (m.write a b).read a = b := by
  induction m with
  | nil => exact Memory.read_cons_same [] a b (by simp)
  | cons c m ih =>
    obtain ⟨k, v⟩ := c
    have hlt := hm.head_lt
    simp only [Memory.write]
    split
    · next h =>
      refine Memory.read_cons_same _ a b fun d hd => ?_
      rcases List.mem_cons.1 hd with rfl | hd
      · exact h
      · exact Nat.lt_trans h (hlt d hd)
    · split
      · next h => exact Memory.read_cons_same _ a b fun d hd => h ▸ hlt d hd
      · next h => simp [Memory.read, h, ih hm.tail]

/-- A write leaves every other address alone. -/
theorem Memory.read_write_other (m : Memory) {a q : Nat} (b : Byte) (h : q ≠ a) :
    (m.write a b).read q = m.read q := by
  induction m with
  | nil => exact Memory.read_cons_other [] b h
  | cons c m ih =>
    obtain ⟨k, v⟩ := c
    simp only [Memory.write]
    split
    · exact Memory.read_cons_other _ b h
    · split
      · next hk =>
        rw [Memory.read_cons_other _ b h, Memory.read, if_neg (by omega)]
      · simp only [Memory.read, ih]

/-- A read after a write, in one equation. -/
theorem Memory.read_write (m : Memory) (hm : Memory.Wf m) (a q : Nat) (b : Byte) :
    (m.write a b).read q = if q = a then b else m.read q := by
  by_cases h : q = a
  · subst h; simp [Memory.read_write_same m hm]
  · simp [h, Memory.read_write_other m b h]

/-- The cells after a write are those there were, and perhaps the one written. -/
theorem Memory.mem_write {m : Memory} {a : Nat} {b : Byte} {c : Host.Cell} (h : c ∈ m.write a b) :
    c = (a, b) ∨ c ∈ m := by
  have hcons : ∀ m' : Memory, c ∈ Memory.cons a b m' → c = (a, b) ∨ c ∈ m' := by
    intro m' h'
    by_cases hb : b = unlistedByte a
    · exact .inr (by simpa [Memory.cons, hb] using h')
    · simpa [Memory.cons, hb] using h'
  induction m with
  | nil => exact hcons [] h
  | cons d m ih =>
    obtain ⟨k, v⟩ := d
    simp only [Memory.write] at h
    split at h
    · exact hcons _ h
    · split at h
      · exact (hcons _ h).imp_right (List.mem_cons_of_mem _)
      · rcases List.mem_cons.1 h with h | h
        · exact .inr (h ▸ List.mem_cons_self)
        · exact (ih h).imp_right (List.mem_cons_of_mem _)

/-- Listing a byte below every cell keeps the canonical form. -/
theorem Memory.wf_cons {m : Memory} (hm : Memory.Wf m) {a : Nat} (b : Byte) (h : ∀ c ∈ m, a < c.1) :
    Memory.Wf (Memory.cons a b m) := by
  by_cases hb : b = unlistedByte a
  · simpa [Memory.cons, hb] using hm
  · simp only [Memory.cons, hb, if_false]
    refine ⟨List.pairwise_cons.2 ⟨h, hm.1⟩, fun c hc => ?_⟩
    rcases List.mem_cons.1 hc with rfl | hc
    · exact hb
    · exact hm.2 c hc

/-- A write keeps the canonical form. -/
theorem Memory.wf_write {m : Memory} (hm : Memory.Wf m) (a : Nat) (b : Byte) :
    Memory.Wf (m.write a b) := by
  induction m with
  | nil => exact Memory.wf_cons hm b (by simp)
  | cons c m ih =>
    obtain ⟨k, v⟩ := c
    have hlt := hm.head_lt
    simp only [Memory.write]
    split
    · next h =>
      refine Memory.wf_cons hm b fun d hd => ?_
      rcases List.mem_cons.1 hd with rfl | hd
      · exact h
      · exact Nat.lt_trans h (hlt d hd)
    · split
      · next h => exact Memory.wf_cons hm.tail b fun d hd => h ▸ hlt d hd
      · next h1 h2 =>
        have hw := ih hm.tail
        refine ⟨List.pairwise_cons.2 ⟨fun d hd => ?_, hw.1⟩, fun d hd => ?_⟩
        · rcases Memory.mem_write hd with rfl | hd
          · show k < a
            omega
          · exact hlt d hd
        · rcases List.mem_cons.1 hd with rfl | hd
          · exact hm.2 _ (by simp)
          · exact hw.2 d hd

/-- The first cell of a canonical memory is what tells it from one that lists only higher addresses. -/
theorem Memory.read_below {m : Memory} {a : Nat} (h : ∀ c ∈ m, a < c.1) : m.read a = unlistedByte a := by
  induction m with
  | nil => rfl
  | cons c m ih =>
    simp [Memory.read, Nat.ne_of_lt (h c (by simp)), ih fun d hd => h d (by simp [hd])]

/-- Two canonical memories that read alike everywhere are equal data. -/
theorem Memory.ext_read {m n : Memory} (hm : Memory.Wf m) (hn : Memory.Wf n)
    (h : ∀ a, m.read a = n.read a) : m = n := by
  have lt_of_read : ∀ {c : Host.Cell} {m n : Memory}, Memory.Wf (c :: m) → Memory.Wf n →
      (∀ a, Memory.read (c :: m) a = n.read a) → ∃ d n', n = d :: n' ∧ d.1 ≤ c.1 := by
    intro c m n hm hn h
    cases n with
    | nil =>
      have := h c.1
      simp only [Memory.read, if_true] at this
      exact absurd this (hm.2 c (by simp))
    | cons d n' =>
      refine ⟨d, n', rfl, ?_⟩
      by_contra hlt
      have hlow : ∀ e ∈ d :: n', c.1 < e.1 := by
        intro e he
        rcases List.mem_cons.1 he with rfl | he
        · omega
        · exact Nat.lt_trans (by omega) (hn.head_lt e he)
      have := h c.1
      rw [Memory.read_below hlow] at this
      simp only [Memory.read, if_true] at this
      exact hm.2 c (by simp) this
  induction m generalizing n with
  | nil =>
    cases n with
    | nil => rfl
    | cons d n =>
      obtain ⟨_, _, he, _⟩ := lt_of_read hn hm fun a => (h a).symm
      cases he
  | cons c m ih =>
    obtain ⟨d, n', rfl, hle⟩ := lt_of_read hm hn h
    obtain ⟨e, m', he, hle'⟩ := lt_of_read hn hm fun a => (h a).symm
    obtain ⟨rfl, rfl⟩ := List.cons.inj he
    have hk : c.1 = d.1 := Nat.le_antisymm hle' hle
    have hv : c.2 = d.2 := by
      have := h c.1
      simpa [Memory.read, hk] using this
    have hcd : c = d := Prod.ext hk hv
    subst hcd
    congr 1
    refine ih hm.tail hn.tail fun a => ?_
    by_cases ha : a = c.1
    · subst ha
      rw [Memory.read_below hm.head_lt, Memory.read_below hn.head_lt]
    · simpa [Memory.read, ha] using h a

/-! ### Consecutive bytes -/

/-- Writing consecutive bytes keeps the canonical form. -/
theorem Memory.wf_writeBytes {m : Memory} (hm : Memory.Wf m) (a : Nat) (bs : List Byte) :
    Memory.Wf (m.writeBytes a bs) := by
  induction bs generalizing m a with
  | nil => exact hm
  | cons b bs ih => exact ih (Memory.wf_write hm a b) (a + 1)

/-- Reading after writing consecutive bytes. -/
theorem Memory.read_writeBytes {m : Memory} (hm : Memory.Wf m) (a : Nat) (bs : List Byte) (q : Nat) :
    (m.writeBytes a bs).read q =
      if h : a ≤ q ∧ q - a < bs.length then bs[q - a]'h.2 else m.read q := by
  induction bs generalizing m a with
  | nil => simp [Memory.writeBytes]
  | cons b bs ih =>
    rw [Memory.writeBytes, ih (Memory.wf_write hm a b), Memory.read_write m hm]
    by_cases hq : q = a
    · subst hq; simp
    · by_cases hr : a + 1 ≤ q ∧ q - (a + 1) < bs.length
      · have h' : a ≤ q ∧ q - a < (b :: bs).length := by simp; omega
        rw [dif_pos hr, dif_pos h']
        have hs : q - a = (q - (a + 1)) + 1 := by omega
        simp [hs]
      · have h' : ¬ (a ≤ q ∧ q - a < (b :: bs).length) := by
          intro h'
          simp only [List.length_cons] at h'
          omega
        rw [dif_neg hr, dif_neg h', if_neg hq]

/-- The cells after writing consecutive bytes are old ones, or lie among the addresses written. -/
theorem Memory.mem_writeBytes {m : Memory} {a : Nat} {bs : List Byte} {c : Host.Cell}
    (h : c ∈ m.writeBytes a bs) : c ∈ m ∨ (a ≤ c.1 ∧ c.1 < a + bs.length) := by
  induction bs generalizing m a with
  | nil => exact .inl h
  | cons b bs ih =>
    rcases ih h with h | h
    · rcases Memory.mem_write h with rfl | h
      · exact .inr (by simp)
      · exact .inl h
    · exact .inr (by simp only [List.length_cons]; omega)

/-! ### The access primitives -/

/-- `MemRead(addr, 1)`: the byte below the bound, the fault at and beyond it (R62). -/
theorem memRead_cases (a : Nat) (s : State) :
    (a < s.cfg.memSize ∧ memRead a s = .ok (s.mem.read a)) ∨
    (s.cfg.memSize ≤ a ∧ memRead a s = .error (.outOfBounds a)) := by
  by_cases h : s.cfg.memSize ≤ a
  · exact .inr ⟨h, by simp [memRead, h]⟩
  · exact .inl ⟨by omega, by simp [memRead, h]⟩

/-- A byte read that answers, answers the byte. -/
theorem memRead_ok {a : Nat} {s : State} (h : a < s.cfg.memSize) :
    memRead a s = .ok (s.mem.read a) := by
  simp [memRead, Nat.not_le.2 h]

/-- A byte read at or beyond the bound faults. -/
theorem memRead_error {a : Nat} {s : State} (h : s.cfg.memSize ≤ a) :
    memRead a s = .error (.outOfBounds a) := by
  simp [memRead, h]

/-- A byte write below the bound writes that byte. -/
theorem memWrite_ok {a : Nat} {b : Byte} {s : State} (h : a < s.cfg.memSize) :
    memWrite a b s = .ok (s.setMem (s.mem.write a b)) := by
  simp [memWrite, Nat.not_le.2 h]

/-- A byte write at or beyond the bound faults. -/
theorem memWrite_error {a : Nat} {b : Byte} {s : State} (h : s.cfg.memSize ≤ a) :
    memWrite a b s = .error (.outOfBounds a) := by
  simp [memWrite, h]

/-- `MemWrite(addr, 1, b)`: the write below the bound, the fault at and beyond it (R63). -/
theorem memWrite_cases (a : Nat) (b : Byte) (s : State) :
    (a < s.cfg.memSize ∧ memWrite a b s = .ok (s.setMem (s.mem.write a b))) ∨
    (s.cfg.memSize ≤ a ∧ memWrite a b s = .error (.outOfBounds a)) := by
  by_cases h : s.cfg.memSize ≤ a
  · exact .inr ⟨h, memWrite_error h⟩
  · exact .inl ⟨by omega, memWrite_ok (by omega)⟩

/-- The word read of the fetch: both bytes, or the fault (R64). -/
theorem memReadWord_cases (a : Nat) (s : State) :
    (a + 1 < s.cfg.memSize ∧ memReadWord a s = .ok (s.mem.read a ++ s.mem.read (a + 1))) ∨
    (s.cfg.memSize ≤ a + 1 ∧ memReadWord a s = .error (.outOfBounds a)) := by
  by_cases h : s.cfg.memSize ≤ a + 1
  · exact .inr ⟨h, by simp [memReadWord, h]⟩
  · exact .inl ⟨by omega, by simp [memReadWord, h]⟩

/-- Equal memories and configurations read alike. -/
theorem memRead_congr {s t : State} (hc : t.cfg = s.cfg) (hm : t.mem = s.mem) (a : Nat) :
    memRead a t = memRead a s := by
  simp [memRead, hc, hm]

/-- Equal memories, configurations and program counters fetch alike. -/
theorem fetch_congr {s t : State} (hc : t.cfg = s.cfg) (hm : t.mem = s.mem) (hp : t.pc = s.pc) :
    fetch t = fetch s := by
  simp [fetch, memReadWord, hc, hm, hp]

end Sys2Proof.Machine
end

