-- ==== Sys2Proof/Laws/Display.lean ====
section
/-!
SUPPORT. The display: which pixel a plot toggles, what one sprite row does, and what the rows of a sprite
do (spec/45_display.md R210 to R220).
-/
namespace Sys2Proof.Machine

/-! ### Packing (R210) -/

/-- The byte of a pixel, with the width written as a multiple of 8. -/
theorem pixelByte_eq (m x y : Nat) : pixelByte (8 * m) x y = y * m + x / 8 := by
  unfold pixelByte
  rw [show y * (8 * m) + x = x + 8 * (y * m) by ring, Nat.add_mul_div_left _ _ (by norm_num)]
  omega

/-- Different pixels lie in different bits (R210). -/
theorem pixel_place_inj {w x y x' y' : Nat} (hw : w % 8 = 0) (hx : x < w) (hx' : x' < w)
    (hb : pixelByte w x' y' = pixelByte w x y) (hc : pixelBit x' = pixelBit x) : x' = x ∧ y' = y := by
  obtain ⟨m, rfl⟩ : ∃ m, w = 8 * m := ⟨w / 8, by omega⟩
  rw [pixelByte_eq, pixelByte_eq] at hb
  have hq : x / 8 < m := by omega
  have hq' : x' / 8 < m := by omega
  have hy : y' = y := by
    have h1 := congrArg (· / m) hb
    simpa [Nat.mul_comm _ m, Nat.mul_add_div (by omega : m > 0), Nat.div_eq_of_lt hq,
      Nat.div_eq_of_lt hq'] using h1
  subst hy
  unfold pixelBit at hc
  omega

/-- The byte of a pixel of the display lies in the bit grid. -/
theorem pixelByte_lt {w h x y : Nat} (hw : w % 8 = 0) (hx : x < w) (hy : y < h) :
    pixelByte w x y < w * h / 8 := by
  obtain ⟨m, rfl⟩ : ∃ m, w = 8 * m := ⟨w / 8, by omega⟩
  rw [pixelByte_eq, show 8 * m * h = 8 * (m * h) by ring, Nat.mul_div_cancel_left _ (by norm_num)]
  have hq : x / 8 < m := by omega
  calc y * m + x / 8 < y * m + m := by omega
    _ = (y + 1) * m := by ring
    _ ≤ h * m := Nat.mul_le_mul_right m hy
    _ = m * h := by ring

/-! ### One plot (R213) -/

/-- A plot keeps the size of the grid. -/
@[simp] theorem plot_length (c : Config) (x y : Nat) (g : List Byte) :
    (plot c x y g).1.length = g.length := by
  unfold plot; split <;> simp

/-- A plot toggles its pixel, if it is on the display, and no other. -/
theorem plot_pixel {c : Config} (hw : c.width % 8 = 0) {g : List Byte}
    (hg : g.length = c.width * c.height / 8) (x y : Nat) {x' y' : Nat}
    (hx' : x' < c.width) (_hy' : y' < c.height) :
    gridPixel c.width (plot c x y g).1 x' y' =
      (gridPixel c.width g x' y' ^^ decide (x' = x ∧ y' = y)) := by
  unfold plot
  split
  · next h =>
    have : ¬ (x' = x ∧ y' = y) := by omega
    simp [this]
  · next h =>
    have hin : pixelByte c.width x y < g.length := hg ▸ pixelByte_lt hw (by omega) (by omega)
    have hbit : pixelBit x < 8 := by unfold pixelBit; omega
    unfold gridPixel
    by_cases hb : pixelByte c.width x' y' = pixelByte c.width x y
    · rw [hb]
      simp only [List.getD_eq_getElem?_getD, List.getElem?_modify, List.getElem?_eq_getElem hin]
      by_cases hc : pixelBit x' = pixelBit x
      · have := pixel_place_inj hw (by omega : x < c.width) hx' hb hc
        simp [this, hbit]
      · have hne : ¬ (x' = x ∧ y' = y) := fun e => hc (by rw [e.1])
        simp [hne, BitVec.getLsbD_twoPow, Ne.symm hc]
    · have hne : ¬ (x' = x ∧ y' = y) := fun e => hb (by rw [e.1, e.2])
      simp [List.getD_eq_getElem?_getD, Ne.symm hb, hne]

/-- A plot collides exactly when its pixel is on the display and was on. -/
theorem plot_hit (c : Config) (x y : Nat) (g : List Byte) :
    (plot c x y g).2 = (decide (x < c.width ∧ y < c.height) && gridPixel c.width g x y) := by
  unfold plot
  split
  · next h => simp; omega
  · next h => simp; omega

/-! ### One sprite row (R218) -/

/-- The columns of a sprite row keep the size of the grid. -/
@[simp] theorem blitCols_length (c : Config) (px py : Nat) (b : Byte) (cols : List Nat) (g : List Byte) :
    (blitCols c px py b cols g).1.length = g.length := by
  induction cols generalizing g with
  | nil => rfl
  | cons col cols ih =>
    simp only [blitCols, ih]
    unfold setPixel
    split <;> simp

/-- The columns of a sprite row, each at most once, toggle the pixels under their set bits and report
whether one of those was on. -/
theorem blitCols_spec {c : Config} (hw : c.width % 8 = 0) (px py : Nat) (b : Byte) (cols : List Nat)
    (hn : cols.Nodup) {g : List Byte} (hg : g.length = c.width * c.height / 8) :
    (∀ x y, x < c.width → y < c.height →
      gridPixel c.width (blitCols c px py b cols g).1 x y =
        (gridPixel c.width g x y ^^
          decide (y = py ∧ px ≤ x ∧ x - px ∈ cols ∧ spriteBit b (x - px) = true))) ∧
    ((blitCols c px py b cols g).2 = true ↔
      ∃ col ∈ cols, spriteBit b col = true ∧ px + col < c.width ∧ py < c.height ∧
        gridPixel c.width g (px + col) py = true) := by
  induction cols generalizing g with
  | nil => simp [blitCols]
  | cons col cols ih =>
    have hnot : col ∉ cols := (List.nodup_cons.1 hn).1
    have hset : (setPixel c (px + col) py (spriteBit b col) g).1.length = c.width * c.height / 8 := by
      unfold setPixel; split <;> simp [hg]
    have hpix : ∀ x y, x < c.width → y < c.height →
        gridPixel c.width (setPixel c (px + col) py (spriteBit b col) g).1 x y =
          (gridPixel c.width g x y ^^ decide (x = px + col ∧ y = py ∧ spriteBit b col = true)) := by
      intro x y hx hy
      unfold setPixel
      split
      · next hs => rw [plot_pixel hw hg _ _ hx hy]; simp [hs]
      · next hs => simp [hs]
    obtain ⟨ihp, ihh⟩ := ih (List.nodup_cons.1 hn).2 hset
    constructor
    · intro x y hx hy
      simp only [blitCols]
      rw [ihp x y hx hy, hpix x y hx hy, Bool.xor_assoc]
      congr 1
      by_cases hxc : x = px + col
      · subst hxc
        by_cases hy' : y = py <;> cases hsb : spriteBit b col <;> simp [hnot, hy', hsb]
      · have hne : px ≤ x → x - px ≠ col := by omega
        by_cases hle : px ≤ x
        · simp [hxc, hle, hne hle]
        · simp [hxc, hle]
    · simp only [blitCols, Bool.or_eq_true, ihh, List.mem_cons, exists_eq_or_imp]
      refine or_congr ?_ ?_
      · unfold setPixel
        split
        · next hs => rw [plot_hit]; simp [hs]; tauto
        · next hs => simp [hs]
      · refine exists_congr fun k => and_congr_right fun hk => ?_
        have hkc : k ≠ col := fun e => hnot (e ▸ hk)
        refine and_congr_right fun _ => and_congr_right fun hx => and_congr_right fun hy => ?_
        rw [hpix _ _ hx hy]
        simp [hkc]

/-- One sprite row keeps the size of the grid. -/
@[simp] theorem blitRow_length (c : Config) (px py : Nat) (b : Byte) (g : List Byte) :
    (blitRow c px py b g).1.length = g.length := blitCols_length ..

/-- Where the row of a sprite with its left end at (px, py) has a set bit. -/
def rowLit (px py : Nat) (b : Byte) (x y : Nat) : Bool :=
  decide (y = py ∧ px ≤ x ∧ x < px + 8) && spriteBit b (x - px)

/-- One sprite row toggles the pixels under its set bits and reports whether one of those was on. -/
theorem blitRow_spec {c : Config} (hw : c.width % 8 = 0) (px py : Nat) (b : Byte)
    {g : List Byte} (hg : g.length = c.width * c.height / 8) :
    (∀ x y, x < c.width → y < c.height →
      gridPixel c.width (blitRow c px py b g).1 x y =
        (gridPixel c.width g x y ^^ rowLit px py b x y)) ∧
    ((blitRow c px py b g).2 = true ↔
      ∃ x y, x < c.width ∧ y < c.height ∧ rowLit px py b x y = true ∧
        gridPixel c.width g x y = true) := by
  obtain ⟨hp, hh⟩ := blitCols_spec hw px py b (List.range 8) List.nodup_range hg
  constructor
  · intro x y hx hy
    rw [blitRow, hp x y hx hy]
    congr 1
    unfold rowLit
    by_cases hle : px ≤ x
    · have : (x - px < 8) ↔ x < px + 8 := by omega
      cases spriteBit b (x - px) <;> simp [hle, this]
    · simp [hle]
  · rw [blitRow, hh]
    simp only [List.mem_range, rowLit, Bool.and_eq_true, decide_eq_true_eq]
    constructor
    · rintro ⟨k, hk, hs, hx, hy, hon⟩
      exact ⟨px + k, py, hx, hy, ⟨⟨rfl, by omega, by omega⟩, by simpa using hs⟩, hon⟩
    · rintro ⟨x, y, hx, hy, ⟨⟨rfl, hle, hlt⟩, hs⟩, hon⟩
      refine ⟨x - px, by omega, hs, by omega, hy, ?_⟩
      rwa [Nat.add_sub_cancel' hle]

/-! ### The rows of a sprite (R218) -/

/-- The display after the given rows of a sprite, whose bytes are read from the given state, and whether
any of them collided. -/
def drawnRows (s : State) (px py : Nat) : List Nat → List Byte → List Byte × Bool
  | [], g => (g, false)
  | row :: rows, g =>
    let (g1, h1) := blitRow s.cfg px (py + row) (s.mem.read (s.index.toNat + row)) g
    let (g2, h2) := drawnRows s px py rows g1
    (g2, h1 || h2)

/-- The rows keep the size of the grid. -/
@[simp] theorem drawnRows_length (s : State) (px py : Nat) (rows : List Nat) (g : List Byte) :
    (drawnRows s px py rows g).1.length = g.length := by
  induction rows generalizing g with
  | nil => rfl
  | cons row rows ih => simp [drawnRows, ih]

/-- The rows only look at the configuration, Memory and the index register. -/
theorem drawnRows_congr {s t : State} (hc : t.cfg = s.cfg) (hm : t.mem = s.mem) (hi : t.index = s.index)
    (px py : Nat) (rows : List Nat) (g : List Byte) :
    drawnRows t px py rows g = drawnRows s px py rows g := by
  induction rows generalizing g with
  | nil => rfl
  | cons row rows ih => simp [drawnRows, ih, hc, hm, hi]

/-- Everything `drawRows` can do: all rows are readable and it finishes, or it stops at the first row
outside Memory with the rows before it drawn. -/
theorem drawRows_cases (px py : Nat) (rows : List Nat) (hit : Bool) (s : State) :
    ((∀ row ∈ rows, s.index.toNat + row < s.cfg.memSize) ∧
      drawRows px py rows hit s =
        .next ((s.setGrid (drawnRows s px py rows s.bitgrid).1).finishDraw
          (hit || (drawnRows s px py rows s.bitgrid).2))) ∨
    (∃ before row after, rows = before ++ row :: after ∧
      (∀ r ∈ before, s.index.toNat + r < s.cfg.memSize) ∧ s.cfg.memSize ≤ s.index.toNat + row ∧
      drawRows px py rows hit s =
        raise (.outOfBounds (s.index.toNat + row))
          (s.setGrid (drawnRows s px py before s.bitgrid).1)) := by
  induction rows generalizing hit s with
  | nil => exact .inl ⟨by simp, by simp [drawRows, drawnRows]⟩
  | cons row rows ih =>
    rcases memRead_cases (s.index.toNat + row) s with ⟨hlt, hr⟩ | ⟨hle, hr⟩
    · have hcongr : ∀ g rows' g', drawnRows (s.setGrid g) px py rows' g' =
          drawnRows s px py rows' g' :=
        fun g rows' g' => drawnRows_congr (s := s) (t := s.setGrid g) rfl rfl rfl px py rows' g'
      rcases ih (hit || (blitRow s.cfg px (py + row) (s.mem.read (s.index.toNat + row)) s.bitgrid).2)
          (s.setGrid (blitRow s.cfg px (py + row) (s.mem.read (s.index.toNat + row)) s.bitgrid).1) with
        ⟨hall, he⟩ | ⟨before, bad, after, hsplit, hall, hbad, he⟩
      · refine .inl ⟨?_, ?_⟩
        · simpa [hlt] using hall
        · simp only [drawRows, effectiveAddr, hr, he]
          simp [drawnRows, hcongr, Bool.or_assoc]
      · refine .inr ⟨row :: before, bad, after, by simp [hsplit], ?_, hbad, ?_⟩
        · simpa [hlt] using hall
        · simp only [drawRows, effectiveAddr, hr, he]
          simp [drawnRows, hcongr]
    · exact .inr ⟨[], row, rows, rfl, by simp, hle, by
        simp [drawRows, effectiveAddr, hr, drawnRows]⟩

/-- The rows toggle the pixels under their set bits, whose rows are all different, and report whether one
of those was on. -/
theorem drawnRows_spec {s : State} (hw : s.cfg.width % 8 = 0) (px py : Nat) (rows : List Nat)
    (hn : rows.Nodup) {g : List Byte} (hg : g.length = s.cfg.width * s.cfg.height / 8) :
    (∀ x y, x < s.cfg.width → y < s.cfg.height →
      gridPixel s.cfg.width (drawnRows s px py rows g).1 x y =
        (gridPixel s.cfg.width g x y ^^
          (decide (py ≤ y ∧ y - py ∈ rows) &&
            rowLit px y (s.mem.read (s.index.toNat + (y - py))) x y))) ∧
    ((drawnRows s px py rows g).2 = true ↔
      ∃ x y, x < s.cfg.width ∧ y < s.cfg.height ∧ (py ≤ y ∧ y - py ∈ rows) ∧
        rowLit px y (s.mem.read (s.index.toNat + (y - py))) x y = true ∧
        gridPixel s.cfg.width g x y = true) := by
  induction rows generalizing g with
  | nil => simp [drawnRows]
  | cons row rows ih =>
    have hnot : row ∉ rows := (List.nodup_cons.1 hn).1
    have hlen : (blitRow s.cfg px (py + row) (s.mem.read (s.index.toNat + row)) g).1.length =
        s.cfg.width * s.cfg.height / 8 := by simp [hg]
    obtain ⟨hp, hh⟩ := blitRow_spec hw px (py + row) (s.mem.read (s.index.toNat + row)) hg
    obtain ⟨ihp, ihh⟩ := ih (List.nodup_cons.1 hn).2 hlen
    have other : ∀ x y, y ≠ py + row →
        rowLit px (py + row) (s.mem.read (s.index.toNat + row)) x y = false := by
      intro x y hy; simp [rowLit, hy]
    constructor
    · intro x y hx hy
      simp only [drawnRows]
      rw [ihp x y hx hy, hp x y hx hy, Bool.xor_assoc]
      congr 1
      by_cases hyr : y = py + row
      · subst hyr; simp [hnot]
      · rw [other x y hyr]
        have : py ≤ y → y - py ≠ row := by omega
        by_cases hle : py ≤ y
        · simp [hle, this hle]
        · simp [hle]
    · simp only [drawnRows, Bool.or_eq_true, ihh, hh]
      constructor
      · rintro (⟨x, y, hx, hy, hl, hon⟩ | ⟨x, y, hx, hy, ⟨hle, hm⟩, hl, hon⟩)
        · have hyr : y = py + row := by
            by_contra hne; rw [other x y hne] at hl; exact absurd hl (by simp)
          subst hyr
          exact ⟨x, py + row, hx, hy, by simp, by simpa using hl, hon⟩
        · refine ⟨x, y, hx, hy, ⟨hle, by simp [hm]⟩, hl, ?_⟩
          have hyr : y ≠ py + row := fun e => hnot (by rw [e] at hm; simpa using hm)
          rw [hp x y hx hy, other x y hyr] at hon
          simpa using hon
      · rintro ⟨x, y, hx, hy, ⟨hle, hm⟩, hl, hon⟩
        rcases List.mem_cons.1 hm with hm | hm
        · have hyr : y = py + row := by omega
          subst hyr
          exact .inl ⟨x, py + row, hx, hy, by simpa using hl, hon⟩
        · refine .inr ⟨x, y, hx, hy, ⟨hle, hm⟩, hl, ?_⟩
          have hyr : y ≠ py + row := fun e => hnot (by rw [e] at hm; simpa using hm)
          rw [hp x y hx hy, other x y hyr]
          simpa using hon

end Sys2Proof.Machine
end

