-- ==== Sys2Proof/Laws/Ops.lean ====
section
/-!
SUPPORT. What the shared operations over the stack, Memory and the keys can do, each said once.
-/
namespace Sys2Proof.Machine

/-! ### The stack (R26, R150, R152) -/

/-- A push onto a stack with room. -/
theorem push_ok {s : State} (h : s.sp.val < 16) (w : Word) :
    s.push w = .ok (s.setStack (s.stack.set s.sp.val w) ⟨s.sp.val + 1, by omega⟩) := by
  simp [State.push, h]

/-- A push onto a full stack. -/
theorem push_error {s : State} (h : s.sp.val = 16) (w : Word) : s.push w = .error .stackOverflow := by
  simp [State.push, h]

/-- A pop from a stack that holds an entry. -/
theorem pop_ok {s : State} (h : 0 < s.sp.val) :
    s.pop = .ok (s.stack[s.sp.val - 1]'(by omega), s.setStack s.stack ⟨s.sp.val - 1, by omega⟩) := by
  simp only [State.pop, dif_neg (Nat.pos_iff_ne_zero.1 h)]

/-- A pop from the empty stack. -/
theorem pop_error {s : State} (h : s.sp.val = 0) : s.pop = .error .stackUnderflow := by
  simp only [State.pop, dif_pos h]

/-! ### Bytes at consecutive addresses (R195) -/

/-- Everything `storeAt` can do: all bytes fit and are written, or it stops at the first address outside
Memory with the bytes before it written. -/
theorem storeAt_cases (a : Nat) (bs : List Byte) (s : State) :
    ((bs = [] ∨ a + bs.length ≤ s.cfg.memSize) ∧
      storeAt a bs s = .next (s.setMem (s.mem.writeBytes a bs))) ∨
    (∃ k, k < bs.length ∧ (∀ j, j < k → a + j < s.cfg.memSize) ∧ s.cfg.memSize ≤ a + k ∧
      storeAt a bs s = raise (.outOfBounds (a + k)) (s.setMem (s.mem.writeBytes a (bs.take k)))) := by
  induction bs generalizing a s with
  | nil => exact .inl ⟨.inl rfl, rfl⟩
  | cons b bs ih =>
    rcases memWrite_cases a b s with ⟨hlt, hw⟩ | ⟨hle, hw⟩
    · rcases ih (a + 1) (s.setMem (s.mem.write a b)) with ⟨hfit, he⟩ | ⟨k, hk, hb, hbad, he⟩
      · refine .inl ⟨.inr ?_, ?_⟩
        · rcases hfit with rfl | hfit
          · simpa using hlt
          · simp only [State.setMem_cfg] at hfit
            simp only [List.length_cons]; omega
        · simp [storeAt, hw, he, Memory.writeBytes]
      · refine .inr ⟨k + 1, by simp [hk], fun j hj => ?_, ?_, ?_⟩
        · cases j with
          | zero => simpa using hlt
          | succ j =>
            have := hb j (by omega)
            simp only [State.setMem_cfg] at this; omega
        · simp only [State.setMem_cfg] at hbad; omega
        · simp [storeAt, hw, he, Memory.writeBytes, show a + 1 + k = a + (k + 1) by omega]
    · exact .inr ⟨0, by simp, by simp, hle, by simp [storeAt, hw, Memory.writeBytes]⟩

/-! ### Registers to and from Memory at the moving index (R196, R197) -/

/-- A block store of these registers, all of whose addresses lie in Memory. -/
def storedRegs : List Reg → State → State
  | [], s => s
  | r :: rs, s =>
    storedRegs rs ((s.setMem (s.mem.write s.index.toNat (s.reg r))).setIndex (s.index + 1))

/-- A block load of these registers, all of whose addresses lie in Memory. -/
def loadedRegs : List Reg → State → State
  | [], s => s
  | r :: rs, s => loadedRegs rs ((s.setReg r (s.mem.read s.index.toNat)).setIndex (s.index + 1))

/-- The offset of the next byte. -/
theorem ofNat_succ (k : Nat) : BitVec.ofNat 16 (k + 1) = 1 + BitVec.ofNat 16 k := by
  rw [Nat.add_comm, BitVec.ofNat_add]; rfl

/-- The first address of a block move. -/
theorem blockAddr_zero (s : State) : blockAddr s 0 = s.index.toNat := by simp [blockAddr]

/-- The addresses after one byte are the addresses from the next one on. -/
theorem blockAddr_succ {s t : State} (h : t.index = s.index + 1) (k : Nat) :
    blockAddr t k = blockAddr s (k + 1) := by
  rw [blockAddr, blockAddr, h, BitVec.add_assoc, ofNat_succ]

/-- Everything a block store can do: it completes, or it stops at the first address outside Memory with
the registers before it stored and the index register at that address. -/
theorem storeMany_cases (rs : List Reg) (s : State) :
    ((∀ k, k < rs.length → blockAddr s k < s.cfg.memSize) ∧
      storeMany rs s = .next (storedRegs rs s)) ∨
    (∃ k, k < rs.length ∧ (∀ j, j < k → blockAddr s j < s.cfg.memSize) ∧
      s.cfg.memSize ≤ blockAddr s k ∧
      storeMany rs s = raise (.outOfBounds (blockAddr s k)) (storedRegs (rs.take k) s)) := by
  induction rs generalizing s with
  | nil => exact .inl ⟨by simp, rfl⟩
  | cons r rs ih =>
    have hsucc := blockAddr_succ (s := s)
      (t := (s.setMem (s.mem.write s.index.toNat (s.reg r))).setIndex (s.index + 1)) rfl
    rcases memWrite_cases s.index.toNat (s.reg r) s with ⟨hlt, hw⟩ | ⟨hle, hw⟩
    · rw [← blockAddr_zero] at hlt
      have hfirst : ∀ k, (∀ j, j < k → blockAddr s (j + 1) < s.cfg.memSize) →
          ∀ j, j < k + 1 → blockAddr s j < s.cfg.memSize := by
        intro k hk j hj
        cases j with
        | zero => exact hlt
        | succ j => exact hk j (by omega)
      rcases ih ((s.setMem (s.mem.write s.index.toNat (s.reg r))).setIndex (s.index + 1)) with
        ⟨hall, he⟩ | ⟨k, hk, hb, hbad, he⟩
      · simp only [hsucc] at hall
        exact .inl ⟨hfirst rs.length hall, by simpa [storeMany, hw, storedRegs] using he⟩
      · simp only [hsucc] at hb hbad he
        exact .inr ⟨k + 1, by simpa using hk, hfirst k hb, hbad, by
          simpa [storeMany, hw, storedRegs] using he⟩
    · exact .inr ⟨0, by simp, by simp, by simpa [blockAddr_zero] using hle, by
        simp [storeMany, hw, storedRegs, blockAddr_zero]⟩

/-- Everything a block load can do: it completes, or it stops at the first address outside Memory with
the registers before it loaded and the index register at that address. -/
theorem loadMany_cases (rs : List Reg) (s : State) :
    ((∀ k, k < rs.length → blockAddr s k < s.cfg.memSize) ∧
      loadMany rs s = .next (loadedRegs rs s)) ∨
    (∃ k, k < rs.length ∧ (∀ j, j < k → blockAddr s j < s.cfg.memSize) ∧
      s.cfg.memSize ≤ blockAddr s k ∧
      loadMany rs s = raise (.outOfBounds (blockAddr s k)) (loadedRegs (rs.take k) s)) := by
  induction rs generalizing s with
  | nil => exact .inl ⟨by simp, rfl⟩
  | cons r rs ih =>
    have hsucc := blockAddr_succ (s := s)
      (t := (s.setReg r (s.mem.read s.index.toNat)).setIndex (s.index + 1)) rfl
    rcases memRead_cases s.index.toNat s with ⟨hlt, hr⟩ | ⟨hle, hr⟩
    · rw [← blockAddr_zero] at hlt
      have hfirst : ∀ k, (∀ j, j < k → blockAddr s (j + 1) < s.cfg.memSize) →
          ∀ j, j < k + 1 → blockAddr s j < s.cfg.memSize := by
        intro k hk j hj
        cases j with
        | zero => exact hlt
        | succ j => exact hk j (by omega)
      rcases ih ((s.setReg r (s.mem.read s.index.toNat)).setIndex (s.index + 1)) with
        ⟨hall, he⟩ | ⟨k, hk, hb, hbad, he⟩
      · simp only [hsucc] at hall
        exact .inl ⟨hfirst rs.length hall, by simpa [loadMany, hr, loadedRegs] using he⟩
      · simp only [hsucc] at hb hbad he
        exact .inr ⟨k + 1, by simpa using hk, hfirst k hb, hbad, by
          simpa [loadMany, hr, loadedRegs] using he⟩
    · exact .inr ⟨0, by simp, by simp, by simpa [blockAddr_zero] using hle, by
        simp [loadMany, hr, loadedRegs, blockAddr_zero]⟩

/-- A block store changes Memory and the index register alone, and advances the index register by one for
each register. -/
theorem storedRegs_eq (rs : List Reg) (s : State) :
    storedRegs rs s =
      (s.setMem (storedRegs rs s).mem).setIndex (s.index + BitVec.ofNat 16 rs.length) := by
  induction rs generalizing s with
  | nil => simp [storedRegs, State.setMem, State.setIndex]
  | cons r rs ih =>
    simp only [storedRegs]
    rw [ih]
    simp only [State.setMem, State.setIndex, List.length_cons]
    rw [BitVec.add_assoc, ofNat_succ]

/-- A block load changes registers and the index register alone, and advances the index register by one for
each register. -/
theorem loadedRegs_eq (rs : List Reg) (s : State) :
    loadedRegs rs s =
      { s with regs := (loadedRegs rs s).regs, index := s.index + BitVec.ofNat 16 rs.length } := by
  induction rs generalizing s with
  | nil => simp [loadedRegs]
  | cons r rs ih =>
    simp only [loadedRegs]
    rw [ih]
    simp only [State.setReg, State.setIndex, List.length_cons]
    rw [BitVec.add_assoc, ofNat_succ]

/-- A block store keeps the canonical form. -/
theorem storedRegs_wf (rs : List Reg) {s : State} (h : Memory.Wf s.mem) :
    Memory.Wf (storedRegs rs s).mem := by
  induction rs generalizing s with
  | nil => exact h
  | cons r rs ih => exact ih (Memory.wf_write h _ _)

/-- Different positions of a block move have different addresses. -/
theorem blockAddr_inj {s : State} {j k : Nat} (hj : j < 65536) (hk : k < 65536)
    (h : blockAddr s j = blockAddr s k) : j = k := by
  have h1 := BitVec.eq_of_toNat_eq h
  have h2 := congrArg BitVec.toNat ((BitVec.add_right_inj s.index).1 h1)
  simpa [Nat.mod_eq_of_lt hj, Nat.mod_eq_of_lt hk] using h2

/-- What a block store leaves in Memory: each register at its address, every other address alone. -/
theorem storedRegs_read (rs : List Reg) {s : State} (hw : Memory.Wf s.mem) (hn : rs.length ≤ 65536) :
    (∀ k (h : k < rs.length), (storedRegs rs s).mem.read (blockAddr s k) = s.reg rs[k]) ∧
    (∀ a, (∀ k, k < rs.length → a ≠ blockAddr s k) → (storedRegs rs s).mem.read a = s.mem.read a) := by
  induction rs generalizing s with
  | nil => simp [storedRegs]
  | cons r rs ih =>
    have hsucc := blockAddr_succ (s := s)
      (t := (s.setMem (s.mem.write s.index.toNat (s.reg r))).setIndex (s.index + 1)) rfl
    obtain ⟨ihk, iho⟩ := ih
      (s := (s.setMem (s.mem.write s.index.toNat (s.reg r))).setIndex (s.index + 1))
      (Memory.wf_write hw _ _) (by simp at hn; omega)
    simp only [hsucc] at ihk iho
    simp only [List.length_cons] at hn
    have hne : ∀ j, j < rs.length → blockAddr s 0 ≠ blockAddr s (j + 1) := fun j hj e => by
      have := blockAddr_inj (by omega) (by omega) e
      omega
    constructor
    · intro k hk
      cases k with
      | zero =>
        rw [storedRegs, iho _ hne, blockAddr_zero]
        simp [Memory.read_write_same s.mem hw]
      | succ k => simpa [storedRegs] using ihk k (by simpa using hk)
    · intro a ha
      have h0 : a ≠ s.index.toNat := blockAddr_zero s ▸ ha 0 (by simp)
      rw [storedRegs, iho a fun k hk => ha (k + 1) (by simpa using hk)]
      simp [Memory.read_write_other _ _ h0]

/-- What a block load of different registers leaves in them: each the byte at its address, every other
register alone. -/
theorem loadedRegs_reg (rs : List Reg) {s : State} (hd : rs.Nodup) :
    (∀ k (h : k < rs.length), (loadedRegs rs s).reg rs[k] = s.mem.read (blockAddr s k)) ∧
    (∀ q, q ∉ rs → (loadedRegs rs s).reg q = s.reg q) := by
  induction rs generalizing s with
  | nil => simp [loadedRegs]
  | cons r rs ih =>
    have hsucc := blockAddr_succ (s := s)
      (t := (s.setReg r (s.mem.read s.index.toNat)).setIndex (s.index + 1)) rfl
    obtain ⟨ihk, iho⟩ := ih
      (s := (s.setReg r (s.mem.read s.index.toNat)).setIndex (s.index + 1)) (List.nodup_cons.1 hd).2
    simp only [hsucc] at ihk
    constructor
    · intro k hk
      cases k with
      | zero =>
        rw [List.getElem_cons_zero, loadedRegs, iho r (List.nodup_cons.1 hd).1, blockAddr_zero]
        simp
      | succ k => simpa [loadedRegs] using ihk k (by simpa using hk)
    · intro q hq
      rw [List.mem_cons, not_or] at hq
      rw [loadedRegs, iho q hq.2]
      simp [State.reg_setReg, hq.1]

/-- V0 to Vx are x + 1 registers. -/
@[simp] theorem regsUpTo_length (x : Reg) : (regsUpTo x).length = x.val + 1 := by
  simp [regsUpTo]

/-- The `k`-th register of a block move is register `k`. -/
theorem regsUpTo_getElem (x : Reg) (k : Nat) (h : k < (regsUpTo x).length) :
    (regsUpTo x)[k] = ⟨k, by simp at h; omega⟩ := by
  simp [regsUpTo]

/-- A block move names every register once. -/
theorem regsUpTo_nodup (x : Reg) : (regsUpTo x).Nodup :=
  List.Nodup.sublist (List.take_sublist _ _) (List.nodup_finRange 16)

/-- A block move names the registers up to Vx. -/
theorem mem_regsUpTo (x q : Reg) : q ∈ regsUpTo x ↔ q ≤ x := by
  revert x q; decide

/-! ### Keys (R232, R234, R237) -/

/-- A key number below 16 is that key's bit. -/
theorem pressed_of_lt {k : Nat} (h : k < 16) (s : State) : pressed k s = s.keys.getLsbD k := by
  simp [pressed, h]

/-- The key number of a register, or the fault above 15. -/
theorem keyOperand_cases (b : Byte) :
    (b.toNat < 16 ∧ keyOperand b = .ok b.toNat) ∨
    (15 < b.toNat ∧ keyOperand b = .error (.invalidKey b.toNat)) := by
  by_cases h : 15 < b.toNat
  · exact .inr ⟨h, by simp [keyOperand, h]⟩
  · exact .inl ⟨by omega, by simp [keyOperand, h]⟩

/-- The scan finds the lowest key that is down, or no key is down. -/
theorem firstPressed_cases (s : State) :
    (∃ k : Reg, firstPressed s = some k ∧ s.keys.getLsbD k.val = true ∧
      ∀ j : Reg, j < k → s.keys.getLsbD j.val = false) ∨
    (firstPressed s = none ∧ ∀ k : Reg, s.keys.getLsbD k.val = false) := by
  cases h : firstPressed s with
  | none =>
    refine .inr ⟨rfl, fun k => ?_⟩
    have := List.find?_eq_none.1 h k (List.mem_finRange k)
    simpa [pressed_of_lt k.isLt] using this
  | some k =>
    refine .inl ⟨k, rfl, ?_, fun j hj => ?_⟩
    · simpa [pressed_of_lt k.isLt] using List.find?_some h
    · obtain ⟨-, before, after, hsplit, hno⟩ := List.find?_eq_some_iff_append.1 h
      have hjm : j ∈ before ++ k :: after := hsplit ▸ List.mem_finRange j
      have hsorted : (before ++ k :: after).Pairwise (· < ·) := hsplit ▸ List.pairwise_lt_finRange 16
      rcases List.mem_append.1 hjm with hm | hm
      · simpa [pressed_of_lt j.isLt] using hno j hm
      · rcases List.mem_cons.1 hm with rfl | hm
        · exact absurd hj (lt_irrefl _)
        · have := (List.pairwise_cons.1 (List.pairwise_append.1 hsorted).2.1).1 j hm
          exact absurd (lt_trans hj this) (lt_irrefl _)

end Sys2Proof.Machine
end

