-- ==== Sys2Proof/Laws/Timers.lean ====
section
/-!
SUPPORT. The whole periods of a time, and what a countdown leaves (spec/60_exceptions.md R275, R277).
-/
namespace Sys2Proof.Machine

/-- The whole periods of a non-negative time are its floor in periods. -/
theorem wholePeriods_bounds {rate : Rat} {t : Time} (hr : 0 < rate) (ht : 0 ≤ t) :
    (wholePeriods rate t : Rat) ≤ t * rate ∧ t * rate < (wholePeriods rate t : Rat) + 1 := by
  have h0 : (0 : Rat) ≤ t * rate := mul_nonneg ht hr.le
  have hf : 0 ≤ (t * rate).floor := by
    have : (0 : Int) ≤ ⌊t * rate⌋ := Int.floor_nonneg.2 h0
    exact this
  have hc : (wholePeriods rate t : Rat) = ((t * rate).floor : Int) := by
    have : ((wholePeriods rate t : Nat) : Int) = (t * rate).floor := Int.toNat_of_nonneg hf
    exact_mod_cast this
  rw [hc]
  exact ⟨Int.floor_le (t * rate), Int.lt_floor_add_one (t * rate)⟩

/-- The whole periods are the only natural number between those bounds. -/
theorem wholePeriods_unique {rate : Rat} {t : Time} {n : Nat} (hr : 0 < rate) (ht : 0 ≤ t)
    (h1 : (n : Rat) ≤ t * rate) (h2 : t * rate < (n : Rat) + 1) : wholePeriods rate t = n := by
  obtain ⟨b1, b2⟩ := wholePeriods_bounds hr ht
  have l1 : (wholePeriods rate t : Rat) < (n : Rat) + 1 := lt_of_le_of_lt b1 h2
  have l2 : (n : Rat) < (wholePeriods rate t : Rat) + 1 := lt_of_le_of_lt h1 b2
  have l1' : wholePeriods rate t < n + 1 := by exact_mod_cast l1
  have l2' : n < wholePeriods rate t + 1 := by exact_mod_cast l2
  omega

/-- Taking whole periods out of a time leaves a time of less than one period (R277). -/
theorem drop_wholePeriods {rate : Rat} {t : Time} (hr : 0 < rate) (ht : 0 ≤ t) :
    0 ≤ t - (wholePeriods rate t : Rat) / rate ∧ (t - (wholePeriods rate t : Rat) / rate) * rate < 1 := by
  obtain ⟨b1, b2⟩ := wholePeriods_bounds hr ht
  constructor
  · rw [sub_nonneg, div_le_iff₀ hr]; exact b1
  · rw [sub_mul, div_mul_cancel₀ _ hr.ne']; linarith

/-- A countdown leaves its accumulator settled (R28). -/
theorem countdown_settled {rate : Rat} {t : Timer} {delta : Time} (hr : 0 < rate)
    (ht : 0 ≤ t.acc + delta) : (t.countdown rate delta).Settled rate :=
  drop_wholePeriods hr ht

/-- Closing a batch leaves the instruction timer settled (R131). -/
theorem dropPeriods_settled {rate : Rat} {t : Timer} (hr : 0 < rate) (ht : 0 ≤ t.acc) :
    (t.dropPeriods rate (t.elapsedPeriods rate)).Settled rate :=
  drop_wholePeriods hr ht

/-- The open instruction rate is positive, whatever it is. -/
theorem openInstrRate_pos : 0 < Config.openInstrRate := by
  unfold Config.openInstrRate
  positivity

/-- The standard configuration meets the constraints of R7. -/
theorem standard_valid : Config.standard.Valid := by
  refine ⟨?_, ?_, ?_, ?_, ?_, ?_, ?_, openInstrRate_pos, ?_⟩ <;> simp [Config.standard, Config.fontSize]

end Sys2Proof.Machine
end

