-- ==== Sys2Proof/Laws/Exec.lean ====
section
/-!
SUPPORT. What the step can do, and what each meaning with more than one outcome can do: one lemma for
each, cited instead of unfolding it.
-/
namespace Sys2Proof.Machine

/-! ### The step (R122 to R128) -/

/-- Everything a step can do: nothing when halted, a fetch fault, an unknown word, or the instruction. -/
theorem step_cases (s : State) :
    (s.runState ≠ .running ∧ step s = .next s) ∨
    (s.runState = .running ∧ s.cfg.memSize ≤ s.pc.toNat + 1 ∧
      step s = raise (.outOfBounds s.pc.toNat) s) ∨
    (∃ w e, s.runState = .running ∧ fetch s = .ok w ∧ decode w = .error e ∧
      step s = raise (.unknownOpcode w) s.advance) ∨
    (∃ w i, s.runState = .running ∧ fetch s = .ok w ∧ decode w = .ok i ∧
      step s = exec i s.advance) := by
  cases hr : s.runState with
  | haltedOnInfiniteLoop => exact .inl ⟨by simp, by simp [step, hr]⟩
  | haltedOnFault f => exact .inl ⟨by simp, by simp [step, hr]⟩
  | running =>
    rcases memReadWord_cases s.pc.toNat s with ⟨hlt, hf⟩ | ⟨hle, hf⟩
    · cases hd : decode (s.mem.read s.pc.toNat ++ s.mem.read (s.pc.toNat + 1)) with
      | error e =>
        exact .inr (.inr (.inl ⟨_, e, rfl, hf, hd, by simp only [step, hr, fetch, hf, hd]⟩))
      | ok i =>
        exact .inr (.inr (.inr ⟨_, i, rfl, hf, hd, by simp only [step, hr, fetch, hf, hd]⟩))
    · exact .inr (.inl ⟨rfl, hle, by simp only [step, hr, fetch, hf]⟩)

/-- A halted machine is returned unchanged (R128). -/
theorem step_halted {s : State} (h : s.runState ≠ .running) : step s = .next s := by
  rcases step_cases s with ⟨_, he⟩ | ⟨hr, _⟩ | ⟨_, _, hr, _⟩ | ⟨_, _, hr, _⟩
  · exact he
  all_goals exact absurd hr h

/-- A running machine whose word at `pc` decodes runs that instruction on the advanced state. -/
theorem step_decoded {s : State} {w : Word} {i : Instr} (hr : s.runState = .running)
    (hf : fetch s = .ok w) (hd : decode w = .ok i) : step s = exec i (s.setPc (s.pc + 2)) := by
  simp only [step, hr, hf, hd, State.advance_eq]

/-- Rewinding undoes the advance of the step (R124). -/
@[simp] theorem advance_then_rewind (w : Word) : w + 2#16 - 2#16 = w := by simp

/-! ### Control transfer -/

theorem execRet_empty {s : State} (h : s.sp.val = 0) : execRet s = raise .stackUnderflow s := by
  simp only [execRet, pop_error h]

theorem execRet_entry {s : State} (h : 0 < s.sp.val) :
    execRet s = .next ((s.setStack s.stack ⟨s.sp.val - 1, by omega⟩).setPc
      (s.stack[s.sp.val - 1]'(by omega))) := by
  simp only [execRet, pop_ok h]

theorem execCall_full {s : State} (h : s.sp.val = 16) (nnn : Word) :
    execCall nnn s = raise .stackOverflow s := by
  simp only [execCall, push_error h]

theorem execCall_room {s : State} (h : s.sp.val < 16) (nnn : Word) :
    execCall nnn s = .next ((s.setStack (s.stack.set s.sp.val s.pc)
      ⟨s.sp.val + 1, by omega⟩).setPc nnn) := by
  simp only [execCall, push_ok h]

/-! ### Index and memory -/

/-- The digits of FX33, or the fault with the digits before it written. -/
theorem execLdB_cases (x : Reg) (s : State) :
    (s.index.toNat + 3 ≤ s.cfg.memSize ∧
      execLdB x s = .next (s.setMem (s.mem.writeBytes s.index.toNat
        [hundreds (s.reg x), tens (s.reg x), ones (s.reg x)]))) ∨
    (∃ k, k < 3 ∧ (∀ j, j < k → s.index.toNat + j < s.cfg.memSize) ∧
      s.cfg.memSize ≤ s.index.toNat + k ∧
      execLdB x s = raise (.outOfBounds (s.index.toNat + k)) (s.setMem (s.mem.writeBytes s.index.toNat
        ([hundreds (s.reg x), tens (s.reg x), ones (s.reg x)].take k)))) := by
  rcases storeAt_cases (effectiveAddr s 0) [hundreds (s.reg x), tens (s.reg x), ones (s.reg x)] s with
    ⟨h, he⟩ | ⟨k, hk, hb, hbad, he⟩
  · exact .inl ⟨by simpa [effectiveAddr] using h, by simpa [execLdB, effectiveAddr] using he⟩
  · exact .inr ⟨k, by simpa using hk, by simpa [effectiveAddr] using hb,
      by simpa [effectiveAddr] using hbad, by simpa [execLdB, effectiveAddr] using he⟩

/-- FX55: complete, or stopped at the first address outside Memory. -/
theorem execStoreRegs_cases (x : Reg) (s : State) :
    ((∀ k, k < x.val + 1 → blockAddr s k < s.cfg.memSize) ∧
      execStoreRegs x s = .next (storedRegs (regsUpTo x) s)) ∨
    (∃ k, k < x.val + 1 ∧ (∀ j, j < k → blockAddr s j < s.cfg.memSize) ∧
      s.cfg.memSize ≤ blockAddr s k ∧
      execStoreRegs x s =
        raise (.outOfBounds (blockAddr s k)) (storedRegs ((regsUpTo x).take k) s)) := by
  simpa [execStoreRegs] using storeMany_cases (regsUpTo x) s

/-- FX65: complete, or stopped at the first address outside Memory. -/
theorem execLoadRegs_cases (x : Reg) (s : State) :
    ((∀ k, k < x.val + 1 → blockAddr s k < s.cfg.memSize) ∧
      execLoadRegs x s = .next (loadedRegs (regsUpTo x) s)) ∨
    (∃ k, k < x.val + 1 ∧ (∀ j, j < k → blockAddr s j < s.cfg.memSize) ∧
      s.cfg.memSize ≤ blockAddr s k ∧
      execLoadRegs x s =
        raise (.outOfBounds (blockAddr s k)) (loadedRegs ((regsUpTo x).take k) s)) := by
  simpa [execLoadRegs] using loadMany_cases (regsUpTo x) s

/-! ### Display -/

/-- The rows of a list of the first naturals before one of them are the first naturals below it. -/
theorem range_split {n row : Nat} {before after : List Nat}
    (h : List.range n = before ++ row :: after) : before = List.range row ∧ row < n := by
  have hl : before.length < n := by
    have := congrArg List.length h
    simp at this; omega
  have hrow : row = before.length := by
    have h1 : (List.range n)[before.length]? = some before.length := by
      rw [List.getElem?_range hl]
    have h2 : (List.range n)[before.length]? = some row := by rw [h]; simp
    exact Option.some.inj (h2.symm.trans h1)
  refine ⟨?_, hrow ▸ hl⟩
  have ht := congrArg (List.take before.length) h
  rw [List.take_left, List.take_range] at ht
  rw [hrow, ← ht, Nat.min_eq_left hl.le, List.length_range]

/-- DXYN: gated, or drawn, or stopped at the first row outside Memory with the rows before it drawn. -/
theorem execDrw_cases (x y : Reg) (n : Nat) (s : State) :
    (s.vs ≠ 0 ∧ execDrw x y n s = .next (s.setPc (s.pc - 2))) ∨
    (s.vs = 0 ∧ ∃ px py, px = (s.reg x).toNat % s.cfg.width ∧ py = (s.reg y).toNat % s.cfg.height ∧
      (((∀ row, row < n → s.index.toNat + row < s.cfg.memSize) ∧
        execDrw x y n s = .next ((s.setGrid (drawnRows s px py (List.range n) s.bitgrid).1).finishDraw
          (drawnRows s px py (List.range n) s.bitgrid).2)) ∨
      (∃ row, row < n ∧ (∀ r, r < row → s.index.toNat + r < s.cfg.memSize) ∧
        s.cfg.memSize ≤ s.index.toNat + row ∧
        execDrw x y n s = raise (.outOfBounds (s.index.toNat + row))
          (s.setGrid (drawnRows s px py (List.range row) s.bitgrid).1)))) := by
  by_cases hv : s.vs = 0
  · refine .inr ⟨hv, _, _, rfl, rfl, ?_⟩
    have hdef : execDrw x y n s = drawRows ((s.reg x).toNat % s.cfg.width)
        ((s.reg y).toNat % s.cfg.height) (List.range n) false s := by
      simp only [execDrw, hv, ne_eq, not_true_eq_false, if_false]
    rcases drawRows_cases ((s.reg x).toNat % s.cfg.width) ((s.reg y).toNat % s.cfg.height)
        (List.range n) false s with ⟨hall, he⟩ | ⟨before, row, after, hs, hb, hbad, he⟩
    · exact .inl ⟨by simpa using hall, by rw [hdef, he, Bool.false_or]⟩
    · obtain ⟨rfl, hlt⟩ := range_split hs
      exact .inr ⟨row, hlt, by simpa using hb, hbad, by rw [hdef, he]⟩
  · exact .inl ⟨hv, by rw [execDrw, if_pos hv]; rfl⟩

/-! ### Keyboard -/

/-- FX0A: nothing pressed, a key latched, the latched key still down, or released. -/
theorem execLdVxK_cases (x : Reg) (s : State) :
    (s.haltLatch = false ∧ (∀ k : Reg, s.keys.getLsbD k.val = false) ∧
      execLdVxK x s = .next (s.setPc (s.pc - 2))) ∨
    (∃ k : Reg, s.haltLatch = false ∧ s.keys.getLsbD k.val = true ∧
      (∀ j : Reg, j < k → s.keys.getLsbD j.val = false) ∧
      execLdVxK x s =
        .next (((s.setReg x (BitVec.ofNat 8 k.val)).setLatch true).setPc (s.pc - 2))) ∨
    (s.haltLatch = true ∧ pressed (s.reg x).toNat s = true ∧
      execLdVxK x s = .next (s.setPc (s.pc - 2))) ∨
    (s.haltLatch = true ∧ pressed (s.reg x).toNat s = false ∧
      execLdVxK x s = .next (s.setLatch false)) := by
  cases hl : s.haltLatch with
  | false =>
    rcases firstPressed_cases s with ⟨k, hf, hk, hlow⟩ | ⟨hf, hno⟩
    · exact .inr (.inl ⟨k, rfl, hk, hlow, by simp [execLdVxK, hl, hf]⟩)
    · exact .inl ⟨rfl, hno, by simp [execLdVxK, hl, hf]⟩
  | true =>
    cases hp : pressed (s.reg x).toNat s with
    | true => exact .inr (.inr (.inl ⟨rfl, rfl, by simp [execLdVxK, hl, hp]⟩))
    | false => exact .inr (.inr (.inr ⟨rfl, rfl, by simp [execLdVxK, hl, hp]⟩))

end Sys2Proof.Machine
end

