-- ==== Sys2Proof/Laws/Effects.lean ====
section
/-!
SUPPORT. The inversion of `exec`: which states each instruction can leave, said once, so that a statement
about all instructions is a case analysis of `Effect` and never unfolds a meaning.
-/
namespace Sys2Proof.Machine

/-- The instructions whose whole effect is to write their destination register, with no flag. -/
def plainDest : Instr → Option Reg
  | .ldImm x _ | .addImm x _ | .ldReg x _ | .ldVxDt x => some x
  | .cls | .ret | .jp _ | .call _ | .seImm _ _ | .sneImm _ _ | .seReg _ _ | .orReg _ _ | .andReg _ _
  | .xorReg _ _ | .addReg _ _ | .subReg _ _ | .shrReg _ _ | .subnReg _ _ | .shlReg _ _ | .sneReg _ _
  | .ldI _ | .jpV0 _ | .rnd _ _ | .drw _ _ _ | .skp _ | .sknp _ | .ldVxK _ | .ldDtVx _ | .ldStVx _
  | .addI _ | .ldF _ | .ldB _ | .storeRegs _ | .loadRegs _ => none

/-- The instructions that write a result register and then VF as a flag. -/
def flagDest : Instr → Option Reg
  | .orReg x _ | .andReg x _ | .xorReg x _ | .addReg x _ | .subReg x _ | .shrReg x _ | .subnReg x _
  | .shlReg x _ => some x
  | .cls | .ret | .jp _ | .call _ | .seImm _ _ | .sneImm _ _ | .seReg _ _ | .ldImm _ _ | .addImm _ _
  | .ldReg _ _ | .sneReg _ _ | .ldI _ | .jpV0 _ | .rnd _ _ | .drw _ _ _ | .skp _ | .sknp _ | .ldVxDt _
  | .ldVxK _ | .ldDtVx _ | .ldStVx _ | .addI _ | .ldF _ | .ldB _ | .storeRegs _ | .loadRegs _ => none

/-- The instructions that write the index register and nothing else. -/
def indexOnly : Instr → Bool
  | .ldI _ | .addI _ | .ldF _ => true
  | .cls | .ret | .jp _ | .call _ | .seImm _ _ | .sneImm _ _ | .seReg _ _ | .ldImm _ _ | .addImm _ _
  | .ldReg _ _ | .orReg _ _ | .andReg _ _ | .xorReg _ _ | .addReg _ _ | .subReg _ _ | .shrReg _ _
  | .subnReg _ _ | .shlReg _ _ | .sneReg _ _ | .jpV0 _ | .rnd _ _ | .drw _ _ _ | .skp _ | .sknp _
  | .ldVxDt _ | .ldVxK _ | .ldDtVx _ | .ldStVx _ | .ldB _ | .storeRegs _ | .loadRegs _ => false

/-- The instructions that write pc and nothing else when they do not fault: the skips and BNNN. -/
def pcOnly : Instr → Bool
  | .seImm _ _ | .sneImm _ _ | .seReg _ _ | .sneReg _ _ | .skp _ | .sknp _ | .jpV0 _ => true
  | .cls | .ret | .jp _ | .call _ | .ldImm _ _ | .addImm _ _ | .ldReg _ _ | .orReg _ _ | .andReg _ _
  | .xorReg _ _ | .addReg _ _ | .subReg _ _ | .shrReg _ _ | .subnReg _ _ | .shlReg _ _ | .ldI _
  | .rnd _ _ | .drw _ _ _ | .ldVxDt _ | .ldVxK _ | .ldDtVx _ | .ldStVx _ | .addI _ | .ldF _ | .ldB _
  | .storeRegs _ | .loadRegs _ => false

/-- `Effect s i t`: from `s` the instruction `i` may leave `t`. -/
inductive Effect (s : State) : Instr → State → Prop
  | clear : Effect s .cls ((s.setGrid (clearGrid s.bitgrid)).setChanged true)
  | underflow : s.sp.val = 0 → Effect s .ret (s.setRunState (.haltedOnFault .stackUnderflow))
  | popped (h : 0 < s.sp.val) : Effect s .ret
      ((s.setStack s.stack ⟨s.sp.val - 1, by omega⟩).setPc (s.stack[s.sp.val - 1]'(by omega)))
  | overflow (nnn : Word) : s.sp.val = 16 →
      Effect s (.call nnn) (s.setRunState (.haltedOnFault .stackOverflow))
  | pushed (nnn : Word) (h : s.sp.val < 16) : Effect s (.call nnn)
      ((s.setStack (s.stack.set s.sp.val s.pc) ⟨s.sp.val + 1, by omega⟩).setPc nnn)
  | selfJump (nnn : Word) : nnn = s.pc - 2 →
      Effect s (.jp nnn) ((s.setPc nnn).setRunState .haltedOnInfiniteLoop)
  | jump (nnn : Word) : nnn ≠ s.pc - 2 → Effect s (.jp nnn) (s.setPc nnn)
  | toPc (i : Instr) (w : Word) : pcOnly i = true → Effect s i (s.setPc w)
  | badKey (i : Instr) (x : Reg) : i = .skp x ∨ i = .sknp x → 15 < (s.reg x).toNat →
      Effect s i (s.setRunState (.haltedOnFault (.invalidKey (s.reg x).toNat)))
  | toReg (i : Instr) (x : Reg) (b : Byte) : plainDest i = some x → Effect s i (s.setReg x b)
  | random (x : Reg) (kk b : Byte) : Effect s (.rnd x kk) (s.drawRand.setReg x b)
  | toRegFlag (i : Instr) (x : Reg) (b : Byte) (f : Bool) : flagDest i = some x →
      Effect s i (s.setRegFlag x b f)
  | toIndex (i : Instr) (w : Word) : indexOnly i = true → Effect s i (s.setIndex w)
  | toDT (x : Reg) : Effect s (.ldDtVx x) (s.setDT (s.reg x))
  | toST (x : Reg) : Effect s (.ldStVx x) (s.setST (s.reg x))
  | digits (x : Reg) (bs : List Byte) : (∀ j, j < bs.length → s.index.toNat + j < s.cfg.memSize) →
      Effect s (.ldB x) (s.setMem (s.mem.writeBytes s.index.toNat bs))
  | digitsStopped (x : Reg) (bs : List Byte) (a : Nat) :
      (∀ j, j < bs.length → s.index.toNat + j < s.cfg.memSize) → s.cfg.memSize ≤ a →
      Effect s (.ldB x) ((s.setMem (s.mem.writeBytes s.index.toNat bs)).setRunState
        (.haltedOnFault (.outOfBounds a)))
  | stored (x : Reg) (rs : List Reg) : (∀ k, k < rs.length → blockAddr s k < s.cfg.memSize) →
      Effect s (.storeRegs x) (storedRegs rs s)
  | storedStopped (x : Reg) (rs : List Reg) (a : Nat) :
      (∀ k, k < rs.length → blockAddr s k < s.cfg.memSize) → s.cfg.memSize ≤ a →
      Effect s (.storeRegs x) ((storedRegs rs s).setRunState (.haltedOnFault (.outOfBounds a)))
  | loaded (x : Reg) (rs : List Reg) : (∀ r ∈ rs, r ∈ regsUpTo x) → rs.Nodup →
      Effect s (.loadRegs x) (loadedRegs rs s)
  | loadedStopped (x : Reg) (rs : List Reg) (a : Nat) : (∀ r ∈ rs, r ∈ regsUpTo x) → rs.Nodup →
      s.cfg.memSize ≤ a →
      Effect s (.loadRegs x) ((loadedRegs rs s).setRunState (.haltedOnFault (.outOfBounds a)))
  | gated (x y : Reg) (n : Nat) : s.vs ≠ 0 → Effect s (.drw x y n) (s.setPc (s.pc - 2))
  | drawn (x y : Reg) (n : Nat) (g : List Byte) (hit : Bool) : s.vs = 0 →
      g.length = s.bitgrid.length → Effect s (.drw x y n) ((s.setGrid g).finishDraw hit)
  | drawStopped (x y : Reg) (n : Nat) (g : List Byte) (a : Nat) : s.vs = 0 →
      g.length = s.bitgrid.length → s.cfg.memSize ≤ a →
      Effect s (.drw x y n) ((s.setGrid g).setRunState (.haltedOnFault (.outOfBounds a)))
  | waits (x : Reg) : Effect s (.ldVxK x) (s.setPc (s.pc - 2))
  | latched (x k : Reg) : s.haltLatch = false →
      Effect s (.ldVxK x) (((s.setReg x (BitVec.ofNat 8 k.val)).setLatch true).setPc (s.pc - 2))
  | released (x : Reg) : s.haltLatch = true → Effect s (.ldVxK x) (s.setLatch false)

/-- A conditional skip writes pc. -/
theorem skipIf_eq (s : State) (c : Bool) : ∃ w, s.skipIf c = s.setPc w := by
  cases c
  · exact ⟨s.pc, rfl⟩
  · exact ⟨s.pc + 2, rfl⟩

/-- Everything an instruction can do. -/
theorem exec_effect {i : Instr} {s t : State} (h : exec i s = .next t) : Effect s i t := by
  cases i with
  | cls => cases h; exact .clear
  | ret =>
    rw [exec] at h
    rcases Nat.eq_zero_or_pos s.sp.val with hz | hz
    · rw [execRet_empty hz] at h; cases h; exact .underflow hz
    · rw [execRet_entry hz] at h; cases h; exact .popped hz
  | jp nnn =>
    simp only [exec, execJp] at h
    split at h <;> cases h
    · exact .selfJump _ ‹_›
    · exact .jump _ ‹_›
  | call nnn =>
    rw [exec] at h
    rcases Nat.lt_or_ge s.sp.val 16 with hz | hz
    · rw [execCall_room hz] at h; cases h; exact .pushed _ hz
    · rw [execCall_full (by omega)] at h; cases h; exact .overflow _ (by omega)
  | seImm x kk =>
    cases h; obtain ⟨w, e⟩ := skipIf_eq s (s.reg x == kk); rw [e]; exact .toPc _ w rfl
  | sneImm x kk =>
    cases h; obtain ⟨w, e⟩ := skipIf_eq s (s.reg x != kk); rw [e]; exact .toPc _ w rfl
  | seReg x y =>
    cases h; obtain ⟨w, e⟩ := skipIf_eq s (s.reg x == s.reg y); rw [e]; exact .toPc _ w rfl
  | sneReg x y =>
    cases h; obtain ⟨w, e⟩ := skipIf_eq s (s.reg x != s.reg y); rw [e]; exact .toPc _ w rfl
  | ldImm x _ => cases h; exact .toReg _ x _ rfl
  | addImm x _ => cases h; exact .toReg _ x _ rfl
  | ldReg x _ => cases h; exact .toReg _ x _ rfl
  | ldVxDt x => cases h; exact .toReg _ x _ rfl
  | orReg x _ => cases h; exact .toRegFlag _ x _ _ rfl
  | andReg x _ => cases h; exact .toRegFlag _ x _ _ rfl
  | xorReg x _ => cases h; exact .toRegFlag _ x _ _ rfl
  | addReg x _ => cases h; exact .toRegFlag _ x _ _ rfl
  | subReg x _ => cases h; exact .toRegFlag _ x _ _ rfl
  | shrReg x _ => cases h; exact .toRegFlag _ x _ _ rfl
  | subnReg x _ => cases h; exact .toRegFlag _ x _ _ rfl
  | shlReg x _ => cases h; exact .toRegFlag _ x _ _ rfl
  | ldI _ => cases h; exact .toIndex _ _ rfl
  | addI _ => cases h; exact .toIndex _ _ rfl
  | ldF _ => cases h; exact .toIndex _ _ rfl
  | jpV0 _ => cases h; exact .toPc _ _ rfl
  | rnd x kk => cases h; exact .random x kk _
  | ldDtVx x => cases h; exact .toDT x
  | ldStVx x => cases h; exact .toST x
  | skp x =>
    simp only [exec, execSkp] at h
    rcases keyOperand_cases (s.reg x) with ⟨hk, he⟩ | ⟨hk, he⟩ <;> rw [he] at h <;> cases h
    · obtain ⟨w, e⟩ := skipIf_eq s (pressed (s.reg x).toNat s); rw [e]; exact .toPc _ w rfl
    · exact .badKey _ x (.inl rfl) (by omega)
  | sknp x =>
    simp only [exec, execSknp] at h
    rcases keyOperand_cases (s.reg x) with ⟨hk, he⟩ | ⟨hk, he⟩ <;> rw [he] at h <;> cases h
    · obtain ⟨w, e⟩ := skipIf_eq s (!pressed (s.reg x).toNat s); rw [e]; exact .toPc _ w rfl
    · exact .badKey _ x (.inr rfl) (by omega)
  | ldB x =>
    rw [exec] at h
    rcases execLdB_cases x s with ⟨hb, he⟩ | ⟨k, hk, hb, hbad, he⟩ <;> rw [he] at h <;> cases h
    · exact .digits _ _ fun j hj => by simp at hj; omega
    · exact .digitsStopped _ _ _ (fun j hj => hb j (by simp at hj; omega)) hbad
  | storeRegs x =>
    rw [exec] at h
    rcases execStoreRegs_cases x s with ⟨hb, he⟩ | ⟨k, hk, hb, hbad, he⟩ <;> rw [he] at h <;> cases h
    · exact .stored _ _ (by simpa using hb)
    · exact .storedStopped _ _ _ (fun j hj => hb j (by simp at hj; omega)) hbad
  | loadRegs x =>
    rw [exec] at h
    rcases execLoadRegs_cases x s with ⟨hb, he⟩ | ⟨k, hk, hb, hbad, he⟩ <;> rw [he] at h <;> cases h
    · exact .loaded _ _ (fun _ hr => hr) (regsUpTo_nodup x)
    · exact .loadedStopped _ _ _ (fun _ hr => List.mem_of_mem_take hr)
        ((regsUpTo_nodup x).sublist (List.take_sublist _ _)) hbad
  | drw x y n =>
    rw [exec] at h
    rcases execDrw_cases x y n s with
      ⟨hv, he⟩ | ⟨hv, px, py, -, -, ⟨_, he⟩ | ⟨row, _, _, hbad, he⟩⟩ <;> rw [he] at h <;> cases h
    · exact .gated _ _ _ hv
    · exact .drawn _ _ _ _ _ hv (by simp)
    · exact .drawStopped _ _ _ _ _ hv (by simp) hbad
  | ldVxK x =>
    rw [exec] at h
    rcases execLdVxK_cases x s with
      ⟨_, _, he⟩ | ⟨k, hl, _, _, he⟩ | ⟨_, _, he⟩ | ⟨hl, _, he⟩ <;> rw [he] at h <;> cases h
    · exact .waits _
    · exact .latched _ _ hl
    · exact .waits _
    · exact .released _ hl

end Sys2Proof.Machine
end

