-- ==== Sys2Proof/Laws/PerInstr.lean ====
section
/-!
SUPPORT. One lemma for each instruction: the word that encodes a well-formed instruction matches the mask
and the match of its row of the opcode map (spec/30_encoding.md R100).
-/
namespace Sys2Proof.Laws.EncodeMatchesRow

/-- The encoding of the instruction, if it is well formed, is a word of its row. -/
def Statement (i : Instr) : Prop := i.wellFormed = true → i.row.matchesWord (encode i) = true

/-- A word matches a row when the masked word has the row's number. -/
theorem matches_of_toNat {r : OpcodeRow} {w : Word} (h : (w &&& r.mask).toNat = r.code.toNat) :
    r.matchesWord w = true := by
  simp [OpcodeRow.matchesWord, BitVec.eq_of_toNat_eq h]

/-- Format `A` under the mask of its rows. -/
theorem formatA_masked {n3 : Nat} {nnn : Word} (h3 : n3 < 16) (h : fitsNNN nnn = true) :
    (formatA n3 nnn &&& (0xF000 : Word)).toNat = n3 * 4096 := by
  have h := of_decide_eq_true h
  rw [and_F000, formatA_toNat h3 h]; omega

/-- Format `XK` under the mask of its rows. -/
theorem formatXK_masked {n3 : Nat} (h3 : n3 < 16) (x : Reg) (kk : Byte) :
    (formatXK n3 x kk &&& (0xF000 : Word)).toNat = n3 * 4096 := by
  have := x.isLt; have := kk.isLt
  rw [and_F000, formatXK_toNat h3]; omega

/-- Format `XY` under the mask of its rows. -/
theorem formatXY_masked {n3 n0 : Nat} (h3 : n3 < 16) (h0 : n0 < 16) (x y : Reg) :
    (formatXYN n3 x y n0 &&& (0xF00F : Word)).toNat = n3 * 4096 + n0 := by
  have := x.isLt; have := y.isLt
  rw [and_F00F, formatXYN_toNat h3 h0]; omega

/-- Format `XYN` under the mask of its row. -/
theorem formatXYN_masked {n3 n : Nat} (h3 : n3 < 16) (h : fitsN n = true) (x y : Reg) :
    (formatXYN n3 x y n &&& (0xF000 : Word)).toNat = n3 * 4096 := by
  have h := of_decide_eq_true h
  have := x.isLt; have := y.isLt
  rw [and_F000, formatXYN_toNat h3 h]; omega

/-- Format `XF` under the mask of its rows. -/
theorem formatXF_masked {n3 low : Nat} (h3 : n3 < 16) (hl : low < 256) (x : Reg) :
    (formatXF n3 x low &&& (0xF0FF : Word)).toNat = n3 * 4096 + low := by
  have := x.isLt
  rw [and_F0FF, formatXF_toNat h3 hl]; omega

theorem cls : Statement .cls := fun _ => rfl
theorem ret : Statement .ret := fun _ => rfl

theorem jp (nnn : Word) : Statement (.jp nnn) :=
  fun h => matches_of_toNat (formatA_masked (by norm_num) h)
theorem call (nnn : Word) : Statement (.call nnn) :=
  fun h => matches_of_toNat (formatA_masked (by norm_num) h)
theorem seImm (x : Reg) (kk : Byte) : Statement (.seImm x kk) :=
  fun _ => matches_of_toNat (formatXK_masked (by norm_num) x kk)
theorem sneImm (x : Reg) (kk : Byte) : Statement (.sneImm x kk) :=
  fun _ => matches_of_toNat (formatXK_masked (by norm_num) x kk)
theorem seReg (x y : Reg) : Statement (.seReg x y) :=
  fun _ => matches_of_toNat (formatXY_masked (by norm_num) (by norm_num) x y)
theorem ldImm (x : Reg) (kk : Byte) : Statement (.ldImm x kk) :=
  fun _ => matches_of_toNat (formatXK_masked (by norm_num) x kk)
theorem addImm (x : Reg) (kk : Byte) : Statement (.addImm x kk) :=
  fun _ => matches_of_toNat (formatXK_masked (by norm_num) x kk)
theorem ldReg (x y : Reg) : Statement (.ldReg x y) :=
  fun _ => matches_of_toNat (formatXY_masked (by norm_num) (by norm_num) x y)
theorem orReg (x y : Reg) : Statement (.orReg x y) :=
  fun _ => matches_of_toNat (formatXY_masked (by norm_num) (by norm_num) x y)
theorem andReg (x y : Reg) : Statement (.andReg x y) :=
  fun _ => matches_of_toNat (formatXY_masked (by norm_num) (by norm_num) x y)
theorem xorReg (x y : Reg) : Statement (.xorReg x y) :=
  fun _ => matches_of_toNat (formatXY_masked (by norm_num) (by norm_num) x y)
theorem addReg (x y : Reg) : Statement (.addReg x y) :=
  fun _ => matches_of_toNat (formatXY_masked (by norm_num) (by norm_num) x y)
theorem subReg (x y : Reg) : Statement (.subReg x y) :=
  fun _ => matches_of_toNat (formatXY_masked (by norm_num) (by norm_num) x y)
theorem shrReg (x y : Reg) : Statement (.shrReg x y) :=
  fun _ => matches_of_toNat (formatXY_masked (by norm_num) (by norm_num) x y)
theorem subnReg (x y : Reg) : Statement (.subnReg x y) :=
  fun _ => matches_of_toNat (formatXY_masked (by norm_num) (by norm_num) x y)
theorem shlReg (x y : Reg) : Statement (.shlReg x y) :=
  fun _ => matches_of_toNat (formatXY_masked (by norm_num) (by norm_num) x y)
theorem sneReg (x y : Reg) : Statement (.sneReg x y) :=
  fun _ => matches_of_toNat (formatXY_masked (by norm_num) (by norm_num) x y)
theorem ldI (nnn : Word) : Statement (.ldI nnn) :=
  fun h => matches_of_toNat (formatA_masked (by norm_num) h)
theorem jpV0 (nnn : Word) : Statement (.jpV0 nnn) :=
  fun h => matches_of_toNat (formatA_masked (by norm_num) h)
theorem rnd (x : Reg) (kk : Byte) : Statement (.rnd x kk) :=
  fun _ => matches_of_toNat (formatXK_masked (by norm_num) x kk)
theorem drw (x y : Reg) (n : Nat) : Statement (.drw x y n) :=
  fun h => matches_of_toNat (formatXYN_masked (by norm_num) h x y)
theorem skp (x : Reg) : Statement (.skp x) :=
  fun _ => matches_of_toNat (formatXF_masked (by norm_num) (by norm_num) x)
theorem sknp (x : Reg) : Statement (.sknp x) :=
  fun _ => matches_of_toNat (formatXF_masked (by norm_num) (by norm_num) x)
theorem ldVxDt (x : Reg) : Statement (.ldVxDt x) :=
  fun _ => matches_of_toNat (formatXF_masked (by norm_num) (by norm_num) x)
theorem ldVxK (x : Reg) : Statement (.ldVxK x) :=
  fun _ => matches_of_toNat (formatXF_masked (by norm_num) (by norm_num) x)
theorem ldDtVx (x : Reg) : Statement (.ldDtVx x) :=
  fun _ => matches_of_toNat (formatXF_masked (by norm_num) (by norm_num) x)
theorem ldStVx (x : Reg) : Statement (.ldStVx x) :=
  fun _ => matches_of_toNat (formatXF_masked (by norm_num) (by norm_num) x)
theorem addI (x : Reg) : Statement (.addI x) :=
  fun _ => matches_of_toNat (formatXF_masked (by norm_num) (by norm_num) x)
theorem ldF (x : Reg) : Statement (.ldF x) :=
  fun _ => matches_of_toNat (formatXF_masked (by norm_num) (by norm_num) x)
theorem ldB (x : Reg) : Statement (.ldB x) :=
  fun _ => matches_of_toNat (formatXF_masked (by norm_num) (by norm_num) x)
theorem storeRegs (x : Reg) : Statement (.storeRegs x) :=
  fun _ => matches_of_toNat (formatXF_masked (by norm_num) (by norm_num) x)
theorem loadRegs (x : Reg) : Statement (.loadRegs x) :=
  fun _ => matches_of_toNat (formatXF_masked (by norm_num) (by norm_num) x)

end Sys2Proof.Laws.EncodeMatchesRow
end

