-- ==== Sys2Proof/Tests/Slice0.lean ====
section
/-!
SUPPORT. Tests with values from outside the model: words written from the patterns of R100, the vectors of
spec/95_test_vectors.md; and for each obligation with hypotheses a concrete case that meets them.
-/
namespace Sys2Proof.Tests

open Sys2Proof Sys2Proof.Machine

/-! ### Well-formedness: terms that no word encodes are refused (R92) -/

theorem test_wellFormed_refuses_jp : (Instr.jp 0x1000).wellFormed = false := by decide
theorem test_wellFormed_refuses_call : (Instr.call 0xFFFF).wellFormed = false := by decide
theorem test_wellFormed_refuses_ldI : (Instr.ldI 0x1000).wellFormed = false := by decide
theorem test_wellFormed_refuses_jpV0 : (Instr.jpV0 0x8000).wellFormed = false := by decide
theorem test_wellFormed_refuses_drw : (Instr.drw 0 0 16).wellFormed = false := by decide
theorem test_wellFormed_takes_bounds :
    (Instr.jp 0xFFF).wellFormed = true ∧ (Instr.drw 15 15 15).wellFormed = true := by decide

/-! ### Decoding: a word of every row, from its pattern (R93, R100), and words of no row (R103) -/

theorem test_decode_flow :
    decode 0b0000_0000_1110_1110 = .ok .ret ∧
    decode 0b0001_1010_1011_1100 = .ok (.jp 0xABC) ∧
    decode 0b0010_1111_1111_1111 = .ok (.call 0xFFF) ∧
    decode 0b1011_0001_0010_0011 = .ok (.jpV0 0x123) := by decide

theorem test_decode_skips :
    decode 0b0011_1010_0111_1111 = .ok (.seImm 0xA 0x7F) ∧
    decode 0b0100_0001_1000_0000 = .ok (.sneImm 0x1 0x80) ∧
    decode 0b0101_1010_1011_0000 = .ok (.seReg 0xA 0xB) ∧
    decode 0b1001_0010_1110_0000 = .ok (.sneReg 0x2 0xE) := by decide

theorem test_decode_alu_immediate :
    decode 0b0110_0011_1100_0101 = .ok (.ldImm 0x3 0xC5) ∧
    decode 0b0111_1111_0000_0011 = .ok (.addImm 0xF 0x03) ∧
    decode 0b1100_0011_0000_1111 = .ok (.rnd 0x3 0x0F) := by decide

theorem test_decode_alu_register :
    decode 0b1000_0001_0010_0000 = .ok (.ldReg 1 2) ∧
    decode 0b1000_0001_0010_0001 = .ok (.orReg 1 2) ∧
    decode 0b1000_0001_0010_0010 = .ok (.andReg 1 2) ∧
    decode 0b1000_0001_0010_0011 = .ok (.xorReg 1 2) ∧
    decode 0b1000_0001_0010_0100 = .ok (.addReg 1 2) ∧
    decode 0b1000_0001_0010_0101 = .ok (.subReg 1 2) ∧
    decode 0b1000_0001_0010_0110 = .ok (.shrReg 1 2) ∧
    decode 0b1000_1010_1011_0111 = .ok (.subnReg 0xA 0xB) ∧
    decode 0b1000_1010_1011_1110 = .ok (.shlReg 0xA 0xB) := by decide

theorem test_decode_index_memory :
    decode 0b1010_0010_1111_0000 = .ok (.ldI 0x2F0) ∧
    decode 0b1111_0010_0001_1110 = .ok (.addI 2) ∧
    decode 0b1111_0011_0010_1001 = .ok (.ldF 3) ∧
    decode 0b1111_0100_0011_0011 = .ok (.ldB 4) ∧
    decode 0b1111_1111_0101_0101 = .ok (.storeRegs 0xF) ∧
    decode 0b1111_1110_0110_0101 = .ok (.loadRegs 0xE) := by decide

theorem test_decode_devices :
    decode 0b0000_0000_1110_0000 = .ok .cls ∧
    decode 0b1101_0001_0010_0101 = .ok (.drw 1 2 5) ∧
    decode 0b1110_1010_1001_1110 = .ok (.skp 0xA) ∧
    decode 0b1110_0100_1010_0001 = .ok (.sknp 4) ∧
    decode 0b1111_0101_0000_0111 = .ok (.ldVxDt 5) ∧
    decode 0b1111_0000_0000_1010 = .ok (.ldVxK 0) ∧
    decode 0b1111_0101_0001_0101 = .ok (.ldDtVx 5) ∧
    decode 0b1111_0101_0001_1000 = .ok (.ldStVx 5) := by decide

theorem test_decode_rejects_0_5_9 :
    decode 0x0000 = .error (.unknownOpcode 0x0000) ∧
    decode 0x00E1 = .error (.unknownOpcode 0x00E1) ∧
    decode 0x0123 = .error (.unknownOpcode 0x0123) ∧
    decode 0x00FF = .error (.unknownOpcode 0x00FF) ∧
    decode 0x5AB1 = .error (.unknownOpcode 0x5AB1) ∧
    decode 0x9AB8 = .error (.unknownOpcode 0x9AB8) := by decide

theorem test_decode_rejects_8_E_F :
    decode 0x8AB8 = .error (.unknownOpcode 0x8AB8) ∧
    decode 0x8ABD = .error (.unknownOpcode 0x8ABD) ∧
    decode 0x8ABF = .error (.unknownOpcode 0x8ABF) ∧
    decode 0xEA9F = .error (.unknownOpcode 0xEA9F) ∧
    decode 0xE000 = .error (.unknownOpcode 0xE000) ∧
    decode 0xF000 = .error (.unknownOpcode 0xF000) ∧
    decode 0xF075 = .error (.unknownOpcode 0xF075) ∧
    decode 0xF102 = .error (.unknownOpcode 0xF102) := by decide

theorem test_decode_truncated : decodeBytes [0x12] = .error .truncated := by decide

/-- Of two bytes the one at the lower address is the high byte (R64, T1 of the vectors). -/
theorem test_decodeBytes_big_endian :
    decodeBytes [0xD1, 0x25, 0x00] = .ok (.drw 1 2 5, [0x00]) := by decide

/-! ### One step of each instruction (spec/95_test_vectors.md section 2) -/

/-- Whether a result is a next state with the property. -/
def ends (r : Result) (p : State → Bool) : Bool :=
  match r with
  | .next t => p t
  | .fault _ => false
  | .refused _ => false

/-- The word at 0x200, everything else as at reset. -/
def code (w : Nat) : State := State.reset.withFetchWord 16 w

/-- `code` with two registers set. -/
def code2 (w : Nat) (x : Reg) (a : Byte) (y : Reg) (b : Byte) : State :=
  ((code w).setReg x a).setReg y b

/-- The values of V1, V2 and VF. -/
def v12F (t : State) : Byte × Byte × Byte := (t.reg 1, t.reg 2, t.reg VF)

theorem test_jp : ends (step (code 0x1234)) (fun t => t.pc == 0x234 && t.isRunning) := by decide
theorem test_jp_self : ends (step (code 0x1200))
    (fun t => t.pc == 0x200 && t.runState == .haltedOnInfiniteLoop) := by decide
theorem test_call : ends (step (code 0x2300))
    (fun t => t.pc == 0x300 && t.sp == 1 && t.stack[0] == 0x202) := by decide
theorem test_call_full : ends (step { code 0x2300 with sp := 16 })
    (fun t => t.pc == 0x202 && t.sp == 16 && t.runState == .haltedOnFault .stackOverflow) := by decide
theorem test_ret : ends (step { code 0x00EE with sp := 1, stack := Vector.replicate 16 0x204 })
    (fun t => t.pc == 0x204 && t.sp == 0 && t.stack[0] == 0x204) := by decide
theorem test_ret_empty : ends (step (code 0x00EE))
    (fun t => t.pc == 0x202 && t.runState == .haltedOnFault .stackUnderflow) := by decide
theorem test_jpV0 : ends (step ((code 0xBFFF).setReg 0 0xFF)) (fun t => t.pc == 0x10FE) := by decide
theorem test_fetch_at_last_byte : ends (step { State.reset with pc := 0xFFF })
    (fun t => t.pc == 0xFFF && t.runState == .haltedOnFault (.outOfBounds 0xFFF)) := by decide
theorem test_fetch_of_zero : ends (step { State.reset with pc := 0xFFE })
    (fun t => t.pc == 0x1000 && t.runState == .haltedOnFault (.unknownOpcode 0x0000)) := by decide
theorem test_odd_pc : ends (step ({ State.reset with pc := 0x201 }.withFetchWord 16 0x6007))
    (fun t => t.pc == 0x203 && t.reg 0 == 7) := by decide

theorem test_seImm : ends (step ((code 0x332A).setReg 3 0x2A)) (fun t => t.pc == 0x204) := by decide
theorem test_seImm_not : ends (step ((code 0x332A).setReg 3 0x2B)) (fun t => t.pc == 0x202) := by decide
theorem test_sneImm : ends (step (code 0x432A)) (fun t => t.pc == 0x204) := by decide
theorem test_sneImm_not : ends (step ((code 0x432A).setReg 3 0x2A)) (fun t => t.pc == 0x202) := by decide
theorem test_seReg : ends (step (code2 0x5120 1 7 2 7)) (fun t => t.pc == 0x204) := by decide
theorem test_seReg_not : ends (step (code2 0x5120 1 7 2 8)) (fun t => t.pc == 0x202) := by decide
theorem test_sneReg : ends (step (code2 0x9120 1 7 2 8)) (fun t => t.pc == 0x204) := by decide
theorem test_sneReg_not : ends (step (code2 0x9120 1 7 2 7)) (fun t => t.pc == 0x202) := by decide

theorem test_ldImm : ends (step (code 0x6FAB)) (fun t => t.reg VF == 0xAB) := by decide
theorem test_addImm : ends (step (code2 0x7201 2 0xFF VF 0)) (fun t => v12F t == (0, 0, 0)) := by decide
theorem test_ldReg : ends (step ((code2 0x8120 1 0x12 2 0x34).setReg VF 1))
    (fun t => v12F t == (0x34, 0x34, 1)) := by decide
theorem test_orReg : ends (step ((code2 0x8121 1 0x0F 2 0xF0).setReg VF 1))
    (fun t => v12F t == (0xFF, 0xF0, 0)) := by decide
theorem test_orReg_VF : ends (step (code2 0x8F21 VF 0x0F 2 0xF0)) (fun t => t.reg VF == 0) := by decide
theorem test_andReg : ends (step ((code2 0x8122 1 0x3C 2 0x0F).setReg VF 1))
    (fun t => v12F t == (0x0C, 0x0F, 0)) := by decide
theorem test_xorReg : ends (step ((code2 0x8123 1 0xFF 2 0x0F).setReg VF 1))
    (fun t => v12F t == (0xF0, 0x0F, 0)) := by decide
theorem test_addReg : ends (step (code2 0x8124 1 0xFF 2 0x01))
    (fun t => v12F t == (0x00, 0x01, 1)) := by decide
theorem test_addReg_VF : ends (step (code2 0x8F24 VF 0x01 2 0x02)) (fun t => t.reg VF == 0) := by decide
theorem test_subReg : ends (step ((code2 0x8125 1 0x10 2 0x20).setReg VF 1))
    (fun t => v12F t == (0xF0, 0x20, 0)) := by decide
theorem test_subReg_equal : ends (step (code2 0x8125 1 0x33 2 0x33))
    (fun t => v12F t == (0x00, 0x33, 1)) := by decide
theorem test_subnReg : ends (step (code2 0x8127 1 0x10 2 0x20))
    (fun t => v12F t == (0x10, 0x20, 1)) := by decide
theorem test_subnReg_VF : ends (step (code2 0x8F27 VF 0x05 2 0x03)) (fun t => t.reg VF == 0) := by decide
theorem test_shrReg : ends (step (code2 0x8126 1 0xAA 2 0x05))
    (fun t => v12F t == (0x02, 0x05, 1)) := by decide
theorem test_shrReg_from_VF : ends (step (code2 0x81F6 1 0x10 VF 3))
    (fun t => v12F t == (0x01, 0, 1)) := by decide
theorem test_shlReg : ends (step (code2 0x812E 1 0x00 2 0x81))
    (fun t => v12F t == (0x02, 0x81, 1)) := by decide
theorem test_shlReg_VF : ends (step (code2 0x8F2E VF 0x00 2 0x7F)) (fun t => t.reg VF == 0) := by decide
theorem test_rnd_masks : (rndWith 0xA7 3 0x0F State.reset).reg 3 = 0x07 := by decide
theorem test_rnd_no_bits : (rndWith 0xFF 3 0x00 State.reset).reg 3 = 0x00 := by decide

/-- Bytes from an address on. -/
def bytesAt (t : State) (a n : Nat) : List Byte := (List.range n).map fun k => t.mem.read (a + k)

theorem test_ldI : ends (step (code 0xA2F0)) (fun t => t.index == 0x2F0) := by decide
theorem test_addI_wraps : ends (step { (code 0xF21E).setReg 2 1 with index := 0xFFFF })
    (fun t => t.index == 0 && t.reg VF == 0) := by decide
theorem test_ldF_unmasked : ends (step ((code 0xF329).setReg 3 0xFF)) (fun t => t.index == 0x04FB) := by
  decide
theorem test_ldB : ends (step { (code 0xF433).setReg 4 199 with index := 0x400 })
    (fun t => bytesAt t 0x400 3 == [1, 9, 9] && t.index == 0x400) := by decide
theorem test_ldB_at_bound : ends (step { (code 0xF433).setReg 4 255 with index := 0xFFE })
    (fun t => bytesAt t 0xFFE 2 == [2, 5] && t.index == 0xFFE && t.pc == 0x202 &&
      t.runState == .haltedOnFault (.outOfBounds 0x1000)) := by decide
theorem test_storeRegs : ends (step { (code2 0xF255 0 1 1 2).setReg 2 3 with index := 0x300 })
    (fun t => bytesAt t 0x300 4 == [1, 2, 3, 0] && t.index == 0x303) := by decide
theorem test_storeRegs_at_bound : ends (step { code2 0xF255 0 0x11 1 0x22 with index := 0xFFF })
    (fun t => bytesAt t 0xFFF 1 == [0x11] && t.index == 0x1000 &&
      t.runState == .haltedOnFault (.outOfBounds 0x1000)) := by decide
theorem test_loadRegs : ends
    (step { (code 0xF165).setMem ((code 0xF165).mem.writeBytes 0x300 [0xAA, 0xBB, 0xCC]) with index := 0x300 })
    (fun t => t.reg 0 == 0xAA && t.reg 1 == 0xBB && t.reg 2 == 0 && t.index == 0x302) := by decide
theorem test_loadRegs_at_bound : ends
    (step { ((code 0xF165).setMem ((code 0xF165).mem.write 0xFFF 0x77)).setReg 1 0x55 with index := 0xFFF })
    (fun t => t.reg 0 == 0x77 && t.reg 1 == 0x55 && t.index == 0x1000 &&
      t.runState == .haltedOnFault (.outOfBounds 0x1000)) := by decide

theorem test_cls : ends
    (step { (code 0x00E0).setReg VF 3 with bitgrid := List.replicate 256 0xFF, vsyncTimer := ⟨0, 1⟩ })
    (fun t => !t.getPixel 5 5 && t.changed && t.vs == 1 && t.reg VF == 3) := by decide
/-- The glyph 0 at the corner, rows 32 to 34 clipped: six pixels (packing of R210). -/
theorem test_drw_clips : ends (step (code2 0xD015 0 60 1 30))
    (fun t => t.bitgrid.drop 240 ==
        [0, 0, 0, 0, 0, 0, 0, 0x0F, 0, 0, 0, 0, 0, 0, 0, 0x09] &&
      t.bitgrid.take 240 == List.replicate 240 0 && t.reg VF == 0 && t.vs == 1 && t.changed) := by
  decide
theorem test_drw_at_bound : ends
    (step { ((code 0xD013).setMem ((code 0xD013).mem.writeBytes 0xFFE [0xFF, 0x81])).setReg VF 9
      with index := 0xFFE })
    (fun t => t.bitgrid.take 24 ==
        [0xFF, 0, 0, 0, 0, 0, 0, 0, 0x81, 0, 0, 0, 0, 0, 0, 0, 0, 0, 0, 0, 0, 0, 0, 0] &&
      t.reg VF == 9 && t.vs == 0 && !t.changed &&
      t.runState == .haltedOnFault (.outOfBounds 0x1000)) := by decide
/-- Pixel (10,5) is byte 41 bit 5, pixel (63,31) byte 255 bit 0 (R210). -/
theorem test_packing : pixelByte 64 10 5 = 41 ∧ pixelBit 10 = 5 ∧ pixelByte 64 63 31 = 255 ∧
    pixelBit 63 = 0 := by decide

theorem test_skp : ends (step { (code 0xE49E).setReg 4 7 with keys := 0x0080 })
    (fun t => t.pc == 0x204) := by decide
theorem test_skp_invalid : ends (step ((code 0xE49E).setReg 4 0x10))
    (fun t => t.pc == 0x202 && t.runState == .haltedOnFault (.invalidKey 0x10)) := by decide
theorem test_sknp : ends (step { (code 0xE4A1).setReg 4 7 with keys := 0x0080 })
    (fun t => t.pc == 0x202) := by decide
theorem test_sknp_invalid : ends (step { (code 0xE4A1).setReg 4 0x17 with keys := 0x0080 })
    (fun t => t.runState == .haltedOnFault (.invalidKey 0x17)) := by decide
theorem test_ldVxK_lowest : ends (step { code 0xF30A with keys := 0x0220 })
    (fun t => t.pc == 0x200 && t.haltLatch && t.reg 3 == 5) := by decide
theorem test_ldVxK_released : ends
    (step { (code 0xF30A).setReg 3 5 with keys := 0x0002, haltLatch := true })
    (fun t => t.pc == 0x202 && !t.haltLatch && t.reg 3 == 5) := by decide

theorem test_ldVxDt : ends (step { code 0xF507 with delayTimer := ⟨0, 0x1E⟩ })
    (fun t => t.reg 5 == 0x1E && t.dt == 0x1E) := by decide
theorem test_ldDtVx : ends (step ((code 0xF515).setReg 5 0x3C)) (fun t => t.dt == 60 && t.st == 0) := by
  decide
theorem test_ldStVx : ends (step ((code 0xF518).setReg 5 0x3C)) (fun t => t.st == 60 && t.dt == 0) := by
  decide

/-! ### Memory and host operations -/

/-- With 65536 bytes of Memory the index register wraps, and the font byte at 0 is overwritten. -/
theorem test_storeRegs_index_wraps : ends
    (execStoreRegs 1 { (code2 0 0 0x11 1 0x22) with
      index := 0xFFFF, cfg := { Config.standard with memSize := 65536 } })
    (fun t => bytesAt t 0xFFFF 1 == [0x11] && bytesAt t 0 1 == [0x22] && t.index == 1 &&
      t.isRunning) := by decide +kernel

/-- Writing back what an unlisted address reads as leaves no cell (the canonical form). -/
theorem test_write_back_font : (Memory.write (Memory.write [] 0 0x11) 0 0xF0) = [] := by decide

/-- The standard configuration with an instruction rate. -/
def rated (rate : Rat) : Config := { Config.standard with chosenRate := some rate }

/-- A machine of that rate with a ROM loaded. -/
def loaded (rate : Rat) (rom : List Byte) : State := loadRom rom (State.initial (rated rate))

/-- The delay timer, ten down, sixty calls away from its end: one call (T7). -/
theorem test_update_counts : ends (update (1 / 60) { loaded 600 [] with delayTimer := ⟨0, 10⟩ })
    (fun t => t.dt == 9 && t.delayTimer.acc == 0 && t.started) := by decide +kernel

/-- P1 of the vectors: three steps of ten slots, V0 = 8, halted on the self-jump. -/
theorem test_update_program : ends
    (update (1 / 60) (loaded 600 [0x60, 0x05, 0x70, 0x03, 0x12, 0x04]))
    (fun t => t.reg 0 == 8 && t.pc == 0x204 && t.runState == .haltedOnInfiniteLoop) := by
  decide +kernel

/-- Slots of less than a period wait in the accumulator (R131, ROM 7001 1200). -/
theorem test_update_fraction : ends (updates [1 / 60, 1 / 1000, 1 / 1000]
      (loaded 600 [0x70, 0x01, 0x12, 0x00]))
    (fun t => t.reg 0 == 6 && t.instrTimer.acc == 1 / 3000) := by decide +kernel

theorem test_press_twice : (press 3 (press 3 State.reset)).keys = 0x0008 := by decide
theorem test_release_twice : (release 3 (release 3 { State.reset with keys := 0x0008 })).keys = 0 := by
  decide
theorem test_press_invalid : press 16 State.reset =
    { State.reset with runState := .haltedOnFault (.invalidKey 16) } := by decide +kernel

/-! ### Witnesses: for each obligation with hypotheses, a case that meets them all -/

theorem ends_next {r : Result} {p : State → Bool} (h : ends r p = true) :
    ∃ t, r = .next t ∧ p t = true := by
  cases r with
  | next t => exact ⟨t, rfl, h⟩
  | fault f => cases h
  | refused f => cases h

theorem witness_DecodeOfEncode :
    (Instr.drw 15 15 15).wellFormed = true ∧ (Instr.jpV0 0xFFF).wellFormed = true := by decide

theorem witness_EncodeOfDecode : decode 0xFF65 = .ok (.loadRegs 15) := by decide

theorem witness_DecoderAgreesWithMasks :
    decode 0x9120 = .ok (.sneReg 1 2) ∧ (Instr.sneReg 0 0).row ∈ opcodeTable ∧
    (Instr.sneReg 0 0).row.matchesWord 0x9120 = true ∧
    ∀ r ∈ opcodeTable, r.matchesWord 0x9AB8 = false := by decide

theorem witness_StepRunsDecodedInstruction :
    (code 0x6005).runState = .running ∧ memRead (code 0x6005).pc.toNat (code 0x6005) = .ok 0x60 ∧
    memRead ((code 0x6005).pc.toNat + 1) (code 0x6005) = .ok 0x05 ∧
    decodeBytes [0x60, 0x05] = .ok (.ldImm 0 5, []) := by decide

theorem witness_FetchIsBigEndianOrFaults :
    State.reset.runState = .running ∧
    { State.reset with pc := 0xFFE }.pc.toNat + 1 < State.reset.cfg.memSize ∧
    State.reset.cfg.memSize ≤ { State.reset with pc := 0xFFF }.pc.toNat + 1 := by decide

theorem witness_UnknownWordFaultsAfterAdvance_known :
    (code 0x00E0).runState = .running ∧ fetch (code 0x00E0) = .ok 0x00E0 ∧
    Instr.cls.row ∈ opcodeTable ∧ Instr.cls.row.matchesWord 0x00E0 = true := by decide

theorem witness_UnknownWordFaultsAfterAdvance_unknown :
    (code 0x00E1).runState = .running ∧ fetch (code 0x00E1) = .ok 0x00E1 ∧
    ∀ r ∈ opcodeTable, r.matchesWord 0x00E1 = false := by decide

/-- Halted on purpose. -/
def stopped : State := { code 0x1200 with runState := .haltedOnInfiniteLoop }

theorem witness_HaltedMachineRunsNothing : stopped.runState ≠ .running ∧ (0 : Time) ≤ 1 / 60 := by
  decide +kernel

theorem witness_ReturnPopsStack :
    State.reset.sp.val = 0 ∧ { State.reset with sp := 1 }.sp.val = (0 : Fin 16).val + 1 ∧
    { State.reset with sp := 16 }.sp.val = (15 : Fin 16).val + 1 := by decide

theorem witness_CallPushesReturnAddress :
    { State.reset with sp := 16 }.sp.val = 16 ∧ State.reset.sp.val = (0 : Fin 16).val ∧
    { State.reset with sp := 15 }.sp.val = (15 : Fin 16).val := by decide

theorem witness_StackIsLastInFirstOut :
    State.reset.sp.val + (List.replicate 16 (0x300 : Word)).length ≤ 16 ∧
    ends (callAll (List.replicate 16 0x300) State.reset) (fun t => t.sp == 16) ∧
    ends (callAll [] State.reset) (fun t => t.sp == 0) := by decide

theorem witness_JumpHaltsOnItself :
    (0x200 : Word) ≠ State.reset.pc - 2 ∧ (0x1FE : Word) = State.reset.pc - 2 := by decide

theorem witness_OnlySelfJumpHaltsOnPurpose :
    (code 0x1200).runState = .running ∧
    ∃ t, step (code 0x1200) = .next t ∧ (t.runState == .haltedOnInfiniteLoop) = true :=
  ⟨by decide, ends_next (p := fun t => t.runState == .haltedOnInfiniteLoop) (by decide)⟩

theorem witness_JumpAddsVZero : (0xFFF : Word).toNat < 4096 := by decide

theorem witness_LogicClearsFlag : (0xE : Reg) ≠ VF := by decide

theorem witness_AddWritesCarry : (0x0 : Reg) ≠ VF ∧
    256 ≤ ((State.reset.setReg 0 0xFF).reg 0).toNat + ((State.reset.setReg 1 1).reg 1).toNat := by decide

theorem witness_SubtractsWriteNotBorrow : (0xE : Reg) ≠ VF ∧
    ((State.reset.setReg 1 0x33).reg 1).toNat ≤ ((State.reset.setReg 2 0x33).reg 2).toNat := by decide

theorem witness_ShiftsTakeRegisterY : (0xE : Reg) ≠ VF := by decide

/-- All digits fit up to the last byte of Memory; one further on, the last digit does not. -/
theorem witness_DecimalDigitsStored :
    Memory.Wf State.reset.mem ∧
    effectiveAddr { State.reset with index := 0xFFD } 2 < State.reset.cfg.memSize ∧
    State.reset.cfg.memSize ≤ effectiveAddr { State.reset with index := 0xFFE } 2 := by decide

/-- A state whose block moves end at the last byte of Memory. -/
def atEnd : State := { State.reset with index := 0xFF0 }

theorem witness_BlockStoreCompletes :
    Memory.Wf atEnd.mem ∧ ∀ k : Reg, k ≤ 15 → blockAddr atEnd k.val < atEnd.cfg.memSize := by decide

/-- A state whose block moves cross the end of Memory after one byte. -/
def pastEnd : State := { State.reset with index := 0xFFF }

theorem witness_BlockStoreStopsAtBound :
    Memory.Wf pastEnd.mem ∧ (1 : Reg) ≤ 1 ∧
    (∀ k : Reg, k < 1 → blockAddr pastEnd k.val < pastEnd.cfg.memSize) ∧
    pastEnd.cfg.memSize ≤ blockAddr pastEnd (1 : Reg).val := by decide

theorem witness_BlockLoadCompletes :
    ∀ k : Reg, k ≤ 15 → blockAddr atEnd k.val < atEnd.cfg.memSize := by decide

theorem witness_BlockLoadStopsAtBound :
    (1 : Reg) ≤ 15 ∧ (∀ k : Reg, k < 1 → blockAddr pastEnd k.val < pastEnd.cfg.memSize) ∧
    pastEnd.cfg.memSize ≤ blockAddr pastEnd (1 : Reg).val := by decide

theorem reset_gridLegal : GridLegal State.reset := ⟨by decide, by simp [State.reset, State.initial]⟩

/-- The last pixel, and the first column and row off the display. -/
theorem witness_PlotTogglesOnePixel :
    GridLegal State.reset ∧ 63 < State.reset.cfg.width ∧ 31 < State.reset.cfg.height ∧
    State.reset.cfg.width ≤ 64 ∧ State.reset.cfg.height ≤ 32 :=
  ⟨reset_gridLegal, by decide, by decide, by decide, by decide⟩

/-- A draw at `pc` while the vsync timer is not ready. -/
def gated : State := { code 0xD015 with vsyncTimer := ⟨0, 1⟩ }

theorem witness_GatedDrawWaits :
    gated.runState = .running ∧ fetch gated = .ok 0xD015 ∧ decode 0xD015 = .ok (.drw 0 1 5) ∧
    gated.vs ≠ 0 := by decide

/-- A display with every pixel on. -/
def white : State := { State.reset with bitgrid := List.replicate 256 0xFF }

theorem reset_dark (cx cy : Nat) : State.reset.getPixel cx cy = false := by
  have h : State.reset.bitgrid = List.replicate 256 0 := rfl
  unfold State.getPixel gridPixel
  split
  · rw [h, List.getD_eq_getElem?_getD, List.getElem?_replicate]
    split <;> simp
  · rfl

/-- Fifteen rows up to the last byte of Memory; a sprite over lit pixels and one over dark ones. -/
theorem witness_DrawTogglesSprite :
    GridLegal white ∧ GridLegal State.reset ∧ white.vs = 0 ∧
    (∀ row, row < 15 → effectiveAddr { State.reset with index := 0xFF1 } row < State.reset.cfg.memSize) ∧
    SpriteHits white (originX white 0) (originY white 1) 5 ∧
    ¬ SpriteHits State.reset (originX State.reset 0) (originY State.reset 1) 5 :=
  ⟨⟨by decide, List.length_replicate⟩, reset_gridLegal,
    by decide, by decide, ⟨0, 0, by decide⟩,
    fun ⟨cx, cy, _, _, _, h⟩ => absurd (reset_dark cx cy) (by simp [h])⟩

theorem witness_DrawStopsAtBound :
    GridLegal pastEnd ∧ pastEnd.vs = 0 ∧ 1 < 3 ∧
    (∀ r, r < 1 → effectiveAddr pastEnd r < pastEnd.cfg.memSize) ∧
    pastEnd.cfg.memSize ≤ effectiveAddr pastEnd 1 :=
  ⟨reset_gridLegal, by decide, by decide, by decide, by decide⟩

theorem witness_RedrawRestoresPicture :
    GridLegal State.reset ∧ State.reset.vs = 0 ∧
    (∀ row, row < 5 → effectiveAddr State.reset row < State.reset.cfg.memSize) ∧
    (∃ t, exec (.drw 0 1 5) State.reset = .next t) ∧
    ¬ SpriteHits State.reset (originX State.reset 0) (originY State.reset 1) 5 ∧
    ∃ cx cy, cx < State.reset.cfg.width ∧ cy < State.reset.cfg.height ∧
      spriteOn State.reset (originX State.reset 0) (originY State.reset 1) 5 cx cy = true :=
  ⟨reset_gridLegal, by decide, by decide,
    (ends_next (p := fun _ => true) (by decide)).imp fun _ h => h.1,
    fun ⟨cx, cy, _, _, _, h⟩ => absurd (reset_dark cx cy) (by simp [h]), 0, 0, by decide⟩

theorem witness_NoSecondDrawInBatch : gated.vs ≠ 0 ∧ ∃ t, runBatch 3 gated = .next t :=
  ⟨by decide, (ends_next (p := fun _ => true) (by decide)).imp fun _ h => h.1⟩

theorem witness_KeySkips :
    ((State.reset.setReg 4 15).reg 4).toNat < 16 ∧ 16 ≤ ((State.reset.setReg 4 16).reg 4).toNat := by
  decide

/-- Keys 5 and 15 down. -/
def twoKeys : State := { State.reset with keys := 0x8020 }

theorem witness_KeyWaitPhases_search :
    State.reset.haltLatch = false ∧ State.reset.keys = 0 ∧ twoKeys.haltLatch = false ∧
    twoKeys.keys.getLsbD (5 : Reg).val = true ∧
    ∀ j : Reg, j < 5 → twoKeys.keys.getLsbD j.val = false := by decide

/-- With the latch set: the latched key is down (15), or up again (14). -/
theorem witness_KeyWaitPhases_latched :
    { twoKeys with haltLatch := true }.haltLatch = true ∧
    ((twoKeys.setReg 3 15).reg 3).toNat < 16 ∧
    twoKeys.keys.getLsbD ((twoKeys.setReg 3 15).reg 3).toNat = true ∧
    twoKeys.keys.getLsbD ((twoKeys.setReg 3 14).reg 3).toNat = false := by decide

theorem witness_KeyWaitWithoutKeysIsSafe :
    (code 0xF30A).runState = .running ∧ fetch (code 0xF30A) = .ok 0xF30A ∧
    decode 0xF30A = .ok (.ldVxK 3) ∧ (code 0xF30A).haltLatch = false ∧ (code 0xF30A).keys = 0 := by
  decide

theorem witness_CountdownIsTheLoop :
    (0 : Rat) < 60 ∧ (0 : Rat) ≤ 0 + 1 / 60 ∧ wholePeriods 60 (0 + 1 / 60) ≤ 1 := by decide +kernel

theorem witness_CountdownsAdd :
    (0 : Rat) < 60 ∧ (0 : Rat) ≤ 1 / 300 ∧ (0 : Rat) ≤ 1 / 100 ∧ (0 : Rat) ≤ 0 := by decide +kernel

/-- Ten slots in a sixtieth of a second at 600 Hz, a boundary of the cadence. -/
theorem witness_UpdateRunsTheCadence :
    (0 : Time) ≤ 1 / 60 ∧ (loaded 600 []).runState = .running ∧ 0 < (loaded 600 []).cfg.instrRate ∧
    0 ≤ (loaded 600 []).instrTimer.acc ∧
    ((10 : Nat) : Rat) ≤ ((loaded 600 []).instrTimer.acc + 1 / 60) * (loaded 600 []).cfg.instrRate ∧
    ((loaded 600 []).instrTimer.acc + 1 / 60) * (loaded 600 []).cfg.instrRate < ((10 : Nat) : Rat) + 1 := by
  decide +kernel

/-- ROM 7001 1200 runs for ever. -/
def endless : State := loaded 600 [0x70, 0x01, 0x12, 0x00]

theorem witness_TotalSlotsAreTheFloor :
    (∀ d ∈ ([1 / 60, 1 / 1000, 1 / 1000] : List Time), 0 ≤ d) ∧ 0 < endless.cfg.instrRate ∧
    endless.instrTimer.acc = 0 ∧
    ∃ t, updates [1 / 60, 1 / 1000, 1 / 1000] endless = .next t ∧ t.runState = .running := by
  refine ⟨by decide +kernel, by decide +kernel, by decide +kernel, ?_⟩
  obtain ⟨t, ht, hr⟩ := ends_next (r := updates [1 / 60, 1 / 1000, 1 / 1000] endless)
    (p := fun t => decide (t.runState = .running)) (by decide +kernel)
  exact ⟨t, ht, of_decide_eq_true hr⟩

/-- A ROM that just fits, and one a byte longer. -/
theorem witness_LoadCopiesRom :
    State.reset.started = false ∧ Memory.Wf State.reset.mem ∧
    State.reset.cfg.start ≤ State.reset.cfg.memSize ∧
    (List.replicate 3584 (0x12 : Byte)).length ≤ State.reset.cfg.memSize - State.reset.cfg.start ∧
    State.reset.cfg.memSize - State.reset.cfg.start < (List.replicate 3585 (0x12 : Byte)).length := by
  refine ⟨by decide, by decide, by decide, ?_, ?_⟩ <;> rw [List.length_replicate] <;> decide

theorem witness_HostDutiesAreRefused :
    ¬ Config.Valid { rated 600 with memSize := 79 } ∧ Config.standard.Valid ∧ (-1 : Time) < 0 ∧
    ∃ t, update 0 (loaded 600 []) = .next t :=
  ⟨by decide +kernel, standard_valid, by decide +kernel,
    (ends_next (p := fun _ => true) (by decide +kernel)).imp fun _ h => h.1⟩

theorem witness_KeyEventsSetAndClear :
    15 < 16 ∧ 16 ≤ 16 ∧ State.reset.runState = .running ∧ stopped.runState ≠ .running := by decide

theorem witness_HaltIsFinal :
    stopped.runState ≠ .running ∧ step stopped = .next stopped ∧
    hostOp .isRunning stopped = .next (.answer false, stopped) :=
  ⟨by decide, rfl, rfl⟩

theorem witness_AccessorsReadTheState :
    63 < State.reset.cfg.width ∧ 31 < State.reset.cfg.height ∧ State.reset.cfg.width ≤ 64 ∧
    State.reset.cfg.height ≤ 32 := by decide

/-- The bounds of the font, and the first and last byte beyond it. -/
theorem witness_ResetValues : (rated 600).Valid ∧ 15 < 16 ∧ 4 < 5 ∧ 80 ≤ 80 ∧
    80 < (rated 600).memSize ∧ 4095 < (rated 600).memSize := by decide +kernel

theorem witness_ResetMeetsInvariants : construct (rated 600) = .next (State.initial (rated 600)) := by
  rw [construct, if_pos (by decide +kernel)]

/-- A machine with an instruction stored and a register set meets the invariants. -/
theorem code_inv : Inv (code2 0x6005 3 0x2A VF 1) where
  cfg := standard_valid
  mem := by decide
  bound := by decide
  grid := by simp [code2, code, State.withFetchWord, State.reset, State.initial]
  delay := ⟨by decide +kernel, by decide +kernel⟩
  sound := ⟨by decide +kernel, by decide +kernel⟩
  vsync := ⟨by decide +kernel, by decide +kernel⟩
  instr := by
    constructor
    · decide +kernel
    · have h : (code2 0x6005 3 0x2A VF 1).instrTimer.acc = 0 := rfl
      rw [h, zero_mul]; exact one_pos
  latch := by intro h; exact absurd h (by decide)

theorem witness_StepKeepsInvariants :
    Inv (code2 0x6005 3 0x2A VF 1) ∧ ∃ t, step (code2 0x6005 3 0x2A VF 1) = .next t :=
  ⟨code_inv, _, rfl⟩

theorem witness_HostOperationsKeepInvariants :
    SessionInv (code2 0x6005 3 0x2A VF 1) ∧
    ∃ t, hostOp (.press 15) (code2 0x6005 3 0x2A VF 1) = .next (.done, t) :=
  ⟨⟨code_inv, fun _ => rfl⟩, _, rfl⟩

theorem witness_RegisterWriters : ∃ t, exec (.addReg 1 2) State.reset = .next t := ⟨_, rfl⟩

theorem witness_MemoryAndDisplayWriters :
    (∃ t, exec (.jp 0x234) { State.reset with changed := true } = .next t) ∧
    Instr.jp 0x234 ≠ .cls ∧ (∀ x y n, Instr.jp 0x234 ≠ .drw x y n) ∧ Instr.jp 0x234 ≠ .ret ∧
    (∀ x, Instr.jp 0x234 ≠ .ldB x) ∧ (∀ x, Instr.jp 0x234 ≠ .storeRegs x) :=
  ⟨⟨_, rfl⟩, by simp, by simp, by simp, by simp, by simp⟩

theorem witness_DeviceWriters :
    (∃ t, exec (.addReg 1 2) State.reset = .next t) ∧ (∀ x, Instr.addReg 1 2 ≠ .ldDtVx x) ∧
    (∀ x y n, Instr.addReg 1 2 ≠ .drw x y n) ∧ ∀ x, Instr.addReg 1 2 ≠ .ldVxK x :=
  ⟨⟨_, rfl⟩, by simp, by simp, by simp⟩

theorem witness_FaultsComeFromTheirInstructions :
    State.reset.runState = .running ∧
    exec .ret State.reset =
      .next { State.reset with runState := .haltedOnFault .stackUnderflow } := ⟨rfl, rfl⟩

theorem witness_TimersAreNotReadByOthers :
    (∃ t, exec (.ldStVx 1) State.reset = .next t) ∧ ∀ x y n, Instr.ldStVx 1 ≠ .drw x y n :=
  ⟨⟨_, rfl⟩, by simp⟩

end Sys2Proof.Tests
end

/-! ### The decoder against the encoder (R92, R93, R100) -/

namespace Sys2Proof

/-- The word of format `A` with these fields of `w` is `w`. -/
theorem formatA_fields {n3 : Nat} {w : Word} (h3 : nibble3 w = n3) :
    formatA n3 (fieldNNN w) = w := by
  have hw := w.isLt
  rw [nibble3_eq] at h3
  apply BitVec.eq_of_toNat_eq
  rw [formatA_toNat (by omega) (by rw [fieldNNN_toNat]; omega), fieldNNN_toNat]
  omega

/-- The word of format `XK` with these fields of `w` is `w`. -/
theorem formatXK_fields {n3 : Nat} {w : Word} (h3 : nibble3 w = n3) :
    formatXK n3 (fieldX w) (fieldKK w) = w := by
  have hw := w.isLt
  rw [nibble3_eq] at h3
  apply BitVec.eq_of_toNat_eq
  rw [formatXK_toNat (by omega), fieldX_val, fieldKK_toNat]
  omega

/-- The word of formats `XY` and `XYN` with these fields of `w` is `w`. -/
theorem formatXYN_fields {n3 n0 : Nat} {w : Word} (h3 : nibble3 w = n3) (h0 : nibble0 w = n0) :
    formatXYN n3 (fieldX w) (fieldY w) n0 = w := by
  have hw := w.isLt
  rw [nibble3_eq] at h3
  rw [nibble0_eq] at h0
  apply BitVec.eq_of_toNat_eq
  rw [formatXYN_toNat (by omega) (by omega), fieldX_val, fieldY_val]
  omega

/-- The word of format `XF` with these fields of `w` is `w`. -/
theorem formatXF_fields {n3 low : Nat} {w : Word} (h3 : nibble3 w = n3)
    (hlow : (fieldKK w).toNat = low) : formatXF n3 (fieldX w) low = w := by
  have hw := w.isLt
  rw [nibble3_eq] at h3
  rw [fieldKK_toNat] at hlow
  apply BitVec.eq_of_toNat_eq
  rw [formatXF_toNat (by omega) (by omega), fieldX_val]
  omega

theorem fitsNNN_fieldNNN (w : Word) : fitsNNN (fieldNNN w) = true := by
  rw [decide_eq_true_iff, fieldNNN_toNat]
  omega

theorem fitsN_fieldN (w : Word) : fitsN (fieldN w) = true := by
  rw [decide_eq_true_iff, fieldN_eq]
  omega

/-- The group `n3 = 0`. -/
theorem encode_of_decode0 {w : Word} {i : Instr} (h : decode0 w = .ok i) :
    i.wellFormed = true ∧ encode i = w := by
  unfold decode0 at h
  split at h
  · cases h; exact ⟨rfl, Eq.symm ‹_›⟩
  split at h
  · cases h; exact ⟨rfl, Eq.symm ‹_›⟩
  · cases h

/-- The groups `n3 = 5` and `n3 = 9`, for an instruction `f` of format `XY`. -/
theorem encode_of_decodeXY0 {f : Reg → Reg → Instr} {w : Word} {i : Instr}
    (hf : nibble0 w = 0 →
      (f (fieldX w) (fieldY w)).wellFormed = true ∧ encode (f (fieldX w) (fieldY w)) = w)
    (h : decodeXY0 f w = .ok i) : i.wellFormed = true ∧ encode i = w := by
  unfold decodeXY0 at h
  split at h
  · cases h; exact hf ‹_›
  · cases h

/-- The group `n3 = 8`. -/
theorem encode_of_decode8 {w : Word} {i : Instr} (h3 : nibble3 w = 0x8)
    (h : decode8 w = .ok i) : i.wellFormed = true ∧ encode i = w := by
  unfold decode8 at h
  split at h <;> cases h
  all_goals exact ⟨rfl, formatXYN_fields h3 ‹_›⟩

/-- The group `n3 = E`. -/
theorem encode_of_decodeE {w : Word} {i : Instr} (h3 : nibble3 w = 0xE)
    (h : decodeE w = .ok i) : i.wellFormed = true ∧ encode i = w := by
  unfold decodeE at h
  split at h <;> cases h
  all_goals exact ⟨rfl, formatXF_fields h3 ‹_›⟩

/-- The group `n3 = F`. -/
theorem encode_of_decodeF {w : Word} {i : Instr} (h3 : nibble3 w = 0xF)
    (h : decodeF w = .ok i) : i.wellFormed = true ∧ encode i = w := by
  unfold decodeF at h
  split at h <;> cases h
  all_goals exact ⟨rfl, formatXF_fields h3 ‹_›⟩

/-- What a word decodes to is well formed and encoded by that word, group by group of `n3` (R101). -/
theorem encode_of_decode {w : Word} {i : Instr} (h : decode w = .ok i) :
    i.wellFormed = true ∧ encode i = w := by
  unfold decode at h
  split at h
  -- groups with a dispatch of their own
  case h_1 => exact encode_of_decode0 h
  case h_6 h3 => exact encode_of_decodeXY0 (f := .seReg) (fun h0 => ⟨rfl, formatXYN_fields h3 h0⟩) h
  case h_9 h3 => exact encode_of_decode8 h3 h
  case h_10 h3 => exact encode_of_decodeXY0 (f := .sneReg) (fun h0 => ⟨rfl, formatXYN_fields h3 h0⟩) h
  case h_15 h3 => exact encode_of_decodeE h3 h
  case h_16 =>
    have h3 : nibble3 w = 0xF := by
      have hw := w.isLt
      have h3 := nibble3_eq w
      simp only [imp_false] at *
      omega
    exact encode_of_decodeF h3 h
  -- groups of one row, by format
  case h_2 h3 | h_3 h3 | h_11 h3 | h_12 h3 =>
    cases h; exact ⟨fitsNNN_fieldNNN w, formatA_fields h3⟩
  case h_4 h3 | h_5 h3 | h_7 h3 | h_8 h3 | h_13 h3 => cases h; exact ⟨rfl, formatXK_fields h3⟩
  case h_14 h3 => cases h; exact ⟨fitsN_fieldN w, formatXYN_fields h3 rfl⟩

/-! ### The decoder against the rows of the opcode map (R100, R103) -/

/-- Every instruction belongs to a row of the table. -/
theorem row_mem_opcodeTable (i : Instr) : i.row ∈ opcodeTable := by
  cases i <;> simp [opcodeTable, rowSamples, Instr.row]

/-- A word of a row, as R100 says it. -/
theorem matchesWord_iff (r : OpcodeRow) (w : Word) :
    r.matchesWord w = true ↔ w &&& r.mask = r.code := by
  simp [OpcodeRow.matchesWord]

section

variable {p : String} {c w : Word}

/-! The part of a word that the mask of a row keeps is that part of the row's number. -/

theorem eq_of_row (h : OpcodeRow.matchesWord ⟨p, 0xFFFF, c⟩ w = true) : w = c := by
  rw [matchesWord_iff, and_FFFF] at h
  exact h

theorem nibble3_of_row (h : OpcodeRow.matchesWord ⟨p, 0xF000, c⟩ w = true) :
    nibble3 w = c.toNat / 4096 := by
  have hc : (w &&& 0xF000).toNat = c.toNat := congrArg BitVec.toNat ((matchesWord_iff _ _).1 h)
  rw [and_F000] at hc
  rw [nibble3_eq]
  omega

theorem nibbles_of_row (h : OpcodeRow.matchesWord ⟨p, 0xF00F, c⟩ w = true) :
    nibble3 w = c.toNat / 4096 ∧ nibble0 w = c.toNat % 16 := by
  have hc : (w &&& 0xF00F).toNat = c.toNat := congrArg BitVec.toNat ((matchesWord_iff _ _).1 h)
  rw [and_F00F] at hc
  rw [nibble3_eq, nibble0_eq]
  omega

theorem nibble3_fieldKK_of_row (h : OpcodeRow.matchesWord ⟨p, 0xF0FF, c⟩ w = true) :
    nibble3 w = c.toNat / 4096 ∧ (fieldKK w).toNat = c.toNat % 256 := by
  have hc : (w &&& 0xF0FF).toNat = c.toNat := congrArg BitVec.toNat ((matchesWord_iff _ _).1 h)
  rw [and_F0FF] at hc
  rw [nibble3_eq, fieldKK_toNat]
  omega

end

/-- A word that matches the row of an instruction decodes to an instruction of that row. -/
theorem decode_of_row {i : Instr} {w : Word} (h : i.row.matchesWord w = true) :
    (decode w).map Instr.row = .ok i.row := by
  cases i
  case cls | ret => cases eq_of_row h; rfl
  case jp | call | seImm | sneImm | ldImm | addImm | ldI | jpV0 | rnd | drw =>
    simp [decode, nibble3_of_row h, Except.map, Instr.row]
  case seReg | sneReg =>
    obtain ⟨h3, h0⟩ := nibbles_of_row h
    simp [decode, h3, decodeXY0, h0, Except.map, Instr.row]
  case ldReg | orReg | andReg | xorReg | addReg | subReg | shrReg | subnReg | shlReg =>
    obtain ⟨h3, h0⟩ := nibbles_of_row h
    simp [decode, h3, decode8, h0, Except.map, Instr.row]
  case skp | sknp =>
    obtain ⟨h3, hkk⟩ := nibble3_fieldKK_of_row h
    simp [decode, h3, decodeE, hkk, Except.map, Instr.row]
  case ldVxDt | ldVxK | ldDtVx | ldStVx | addI | ldF | ldB | storeRegs | loadRegs =>
    obtain ⟨h3, hkk⟩ := nibble3_fieldKK_of_row h
    simp [decode, h3, decodeF, hkk, Except.map, Instr.row]

/-- A word of a row of the opcode map decodes to an instruction of that row. -/
theorem exists_decode_of_row {r : OpcodeRow} {w : Word} (hr : r ∈ opcodeTable)
    (h : r.matchesWord w = true) : ∃ i, decode w = .ok i ∧ i.row = r := by
  obtain ⟨j, -, rfl⟩ := List.mem_map.1 hr
  have hrow := decode_of_row h
  cases hd : decode w with
  | error e => rw [hd] at hrow; cases hrow
  | ok i => rw [hd] at hrow; exact ⟨i, rfl, Except.ok.inj hrow⟩

/-- The encoding of every well-formed instruction matches the instruction's row. -/
theorem encode_matchesRow : ∀ i : Instr, Laws.EncodeMatchesRow.Statement i
  | .cls => Laws.EncodeMatchesRow.cls
  | .ret => Laws.EncodeMatchesRow.ret
  | .jp nnn => Laws.EncodeMatchesRow.jp nnn
  | .call nnn => Laws.EncodeMatchesRow.call nnn
  | .seImm x kk => Laws.EncodeMatchesRow.seImm x kk
  | .sneImm x kk => Laws.EncodeMatchesRow.sneImm x kk
  | .seReg x y => Laws.EncodeMatchesRow.seReg x y
  | .ldImm x kk => Laws.EncodeMatchesRow.ldImm x kk
  | .addImm x kk => Laws.EncodeMatchesRow.addImm x kk
  | .ldReg x y => Laws.EncodeMatchesRow.ldReg x y
  | .orReg x y => Laws.EncodeMatchesRow.orReg x y
  | .andReg x y => Laws.EncodeMatchesRow.andReg x y
  | .xorReg x y => Laws.EncodeMatchesRow.xorReg x y
  | .addReg x y => Laws.EncodeMatchesRow.addReg x y
  | .subReg x y => Laws.EncodeMatchesRow.subReg x y
  | .shrReg x y => Laws.EncodeMatchesRow.shrReg x y
  | .subnReg x y => Laws.EncodeMatchesRow.subnReg x y
  | .shlReg x y => Laws.EncodeMatchesRow.shlReg x y
  | .sneReg x y => Laws.EncodeMatchesRow.sneReg x y
  | .ldI nnn => Laws.EncodeMatchesRow.ldI nnn
  | .jpV0 nnn => Laws.EncodeMatchesRow.jpV0 nnn
  | .rnd x kk => Laws.EncodeMatchesRow.rnd x kk
  | .drw x y n => Laws.EncodeMatchesRow.drw x y n
  | .skp x => Laws.EncodeMatchesRow.skp x
  | .sknp x => Laws.EncodeMatchesRow.sknp x
  | .ldVxDt x => Laws.EncodeMatchesRow.ldVxDt x
  | .ldVxK x => Laws.EncodeMatchesRow.ldVxK x
  | .ldDtVx x => Laws.EncodeMatchesRow.ldDtVx x
  | .ldStVx x => Laws.EncodeMatchesRow.ldStVx x
  | .addI x => Laws.EncodeMatchesRow.addI x
  | .ldF x => Laws.EncodeMatchesRow.ldF x
  | .ldB x => Laws.EncodeMatchesRow.ldB x
  | .storeRegs x => Laws.EncodeMatchesRow.storeRegs x
  | .loadRegs x => Laws.EncodeMatchesRow.loadRegs x

/-- A word that decodes is a word of its instruction's row. -/
theorem matchesRow_of_decode {w : Word} {i : Instr} (h : decode w = .ok i) :
    i.row.matchesWord w = true := by
  obtain ⟨hwf, rfl⟩ := encode_of_decode h
  exact encode_matchesRow i hwf

/-- A word of no row is rejected. -/
theorem decode_error_of_no_row {w : Word} (h : ∀ r ∈ opcodeTable, r.matchesWord w = false) :
    ∃ e, decode w = .error e := by
  cases hd : decode w with
  | error e => exact ⟨e, rfl⟩
  | ok i => simpa [matchesRow_of_decode hd] using h i.row (row_mem_opcodeTable i)

end Sys2Proof

/-! ### The step (R122 to R125) -/

namespace Sys2Proof.Machine

/-- A running machine whose word at `pc` is rejected faults on the advanced state (R125). -/
theorem step_rejected {s : State} {w : Word} {e : DecodeReject} (hr : s.runState = .running)
    (hf : fetch s = .ok w) (hd : decode w = .error e) :
    step s = raise (.unknownOpcode w) (s.setPc (s.pc + 2)) := by
  simp only [step, hr, hf, hd, State.advance_eq]

/-- A running machine whose fetch faults takes that fault with `pc` where it is (R123). -/
theorem step_fetchFault {s : State} {f : Fault} (hr : s.runState = .running)
    (hf : fetch s = .error f) : step s = raise f s := by
  simp only [step, hr, hf]

/-- Settles O7: the rows and the decoder agree, so a word of a row runs, and a word of no row is rejected
after the advance. -/
theorem unknownWordFaultsAfterAdvance : Obligations.UnknownWordFaultsAfterAdvance := by
  intro s w hr hf
  constructor
  · intro r hmem hmatch
    obtain ⟨i, hd, hrow⟩ := exists_decode_of_row hmem hmatch
    exact ⟨i, hrow, (encode_of_decode hd).2, hd, step_decoded hr hf hd⟩
  · intro hnone
    obtain ⟨e, hd⟩ := decode_error_of_no_row hnone
    exact step_rejected hr hf hd

/-- The word of two bytes is big-endian (R64). -/
theorem wordOfBytes_toNat (hi lo : Byte) :
    (wordOfBytes hi lo).toNat = hi.toNat * 256 + lo.toNat := by
  rw [wordOfBytes, BitVec.toNat_append, ← Nat.shiftLeft_add_eq_or_of_lt lo.isLt, Nat.shiftLeft_eq]

/-- Settles O6: `memReadWord` reads the two bytes below the bound and faults at it, and the step takes
that fault before the advance. -/
theorem fetchIsBigEndianOrFaults : Obligations.FetchIsBigEndianOrFaults := by
  intro s hr
  rcases memReadWord_cases s.pc.toNat s with ⟨hlt, hf⟩ | ⟨hle, hf⟩
  · refine ⟨fun _ => ?_, fun hle => absurd hlt (Nat.not_lt.2 hle)⟩
    exact ⟨_, _, _, memRead_ok (by omega), memRead_ok hlt, hf, wordOfBytes_toNat _ _⟩
  · exact ⟨fun hlt => absurd hlt (Nat.not_lt.2 hle), fun _ => step_fetchFault hr hf⟩

end Sys2Proof.Machine

/-! ### Call and return (R26, R150, R152) -/

namespace Sys2Proof.Machine

/-- Writing the stack and `pc` is within the frame of a call or a return. -/
theorem onlyStackAndPcChange_setStack_setPc (s : State) (v : Vector Word 16) (n : Fin 17) (w : Word) :
    OnlyStackAndPcChange s ((s.setStack v n).setPc w) := by
  have hmem : SameBytes s ((s.setStack v n).setPc w) := memRead_congr rfl rfl
  have hdev : SameDevices s ((s.setStack v n).setPc w) :=
    ⟨⟨rfl, rfl, rfl, rfl⟩, ⟨rfl, rfl⟩, ⟨rfl, rfl⟩, rfl⟩
  exact ⟨fun _ _ => rfl, rfl, hmem, hdev, rfl⟩

/-- A return with `k + 1` entries in use goes to entry `k` (R150). -/
theorem exec_ret_of_sp_eq_succ {s : State} {k : Fin 16} (h : s.sp.val = k.val + 1) :
    exec .ret s = .next ((s.setStack s.stack k.castSucc).setPc s.stack[k]) := by
  have hret : exec .ret s = execRet s := rfl
  rw [hret, execRet_entry (by omega)]
  simp only [h, Nat.add_sub_cancel]
  rfl

/-- A call with `k` entries in use makes `pc` entry `k` (R152). -/
theorem exec_call_of_sp_eq {s : State} {k : Fin 16} (h : s.sp.val = k.val) (nnn : Word) :
    exec (.call nnn) s = .next ((s.setStack (s.stack.set k s.pc) k.succ).setPc nnn) := by
  have hcall : exec (.call nnn) s = execCall nnn s := rfl
  rw [hcall, execCall_room (by omega)]
  simp only [h]
  rfl

/-- Settles O10: the empty stack faults; otherwise the state left is that of `exec_ret_of_sp_eq_succ`,
whose entries are those of `s`. -/
theorem returnPopsStack : Obligations.ReturnPopsStack := by
  intro s
  constructor
  · exact execRet_empty
  · intro k hk
    exact ⟨_, exec_ret_of_sp_eq_succ hk, rfl, rfl, rfl, onlyStackAndPcChange_setStack_setPc ..⟩

/-- Settles O11: the full stack faults; otherwise the state left is that of `exec_call_of_sp_eq`, whose
entries are those of `s` but for the one at `k`. -/
theorem callPushesReturnAddress : Obligations.CallPushesReturnAddress := by
  intro nnn s
  constructor
  · exact fun h => execCall_full h nnn
  · intro k hk
    refine ⟨_, exec_call_of_sp_eq hk nnn, rfl, rfl, ?_, ?_, onlyStackAndPcChange_setStack_setPc ..⟩
    · exact Vector.getElem_set_self k.isLt
    · exact fun j hj => Vector.getElem_set_ne k.isLt j.isLt (Fin.val_ne_of_ne hj.symm)

end Sys2Proof.Machine

/-! ### The register skips (R160 to R163) -/

namespace Sys2Proof.Machine

/-- A skip whose Boolean test decides `p` advances `pc` by 2 exactly when `p` holds. -/
theorem State.skipIf_of_iff {c : Bool} {p : Prop} [Decidable p] (h : c = true ↔ p) (s : State) :
    s.skipIf c = { s with pc := if p then s.pc + 2 else s.pc } := by
  rw [State.skipIf_eq, if_congr h rfl rfl]
  rfl

/-- Settles O16: each form is `skipIf` on a Boolean comparison, which decides the comparison stated. -/
theorem registerSkips : Obligations.RegisterSkips := by
  intro x y kk s
  refine ⟨?seImm, ?sneImm, ?seReg, ?sneReg⟩
  case seImm => exact congrArg Host.Outcome.next (s.skipIf_of_iff beq_iff_eq)
  case sneImm => exact congrArg Host.Outcome.next (s.skipIf_of_iff bne_iff_ne)
  case seReg => exact congrArg Host.Outcome.next (s.skipIf_of_iff beq_iff_eq)
  case sneReg => exact congrArg Host.Outcome.next (s.skipIf_of_iff bne_iff_ne)

end Sys2Proof.Machine

/-! ### Loads and logic (R170, R172 to R175) -/

namespace Sys2Proof.Machine

theorem OnlyRegsChange.refl (rs : List Reg) (s : State) : OnlyRegsChange rs s s :=
  ⟨fun _ _ => rfl, rfl, rfl, ⟨rfl, rfl⟩, fun _ => rfl,
    ⟨⟨rfl, rfl, rfl, rfl⟩, ⟨rfl, rfl⟩, ⟨rfl, rfl⟩, rfl⟩, rfl⟩

/-- A further write to a register of the list keeps the frame. -/
theorem OnlyRegsChange.setReg {rs : List Reg} {s t : State} (h : OnlyRegsChange rs s t) {x : Reg}
    (hx : x ∈ rs) (b : Byte) : OnlyRegsChange rs s (t.setReg x b) := by
  obtain ⟨hregs, hindex, hpc, hstack, hbytes, hdevices, hrun⟩ := h
  have hregs' : SameRegsBut rs s (t.setReg x b) := fun q hq =>
    (t.reg_setReg_other (ne_of_mem_of_not_mem hx hq).symm b).trans (hregs q hq)
  have hbytes' : SameBytes s (t.setReg x b) := fun a => (memRead_congr rfl rfl a).trans (hbytes a)
  exact ⟨hregs', hindex, hpc, hstack, hbytes', hdevices, hrun⟩

theorem onlyRegsChange_setReg (s : State) (x : Reg) (b : Byte) :
    OnlyRegsChange [x] s (s.setReg x b) :=
  (OnlyRegsChange.refl [x] s).setReg List.mem_cons_self b

theorem onlyRegsChange_setRegFlag (s : State) (x : Reg) (b : Byte) (f : Bool) :
    OnlyRegsChange [x, VF] s (s.setRegFlag x b f) :=
  ((OnlyRegsChange.refl [x, VF] s).setReg (x := x) (by simp) b).setReg (by simp) (flagByte f)

/-- The flag is written last, so VF holds it for every `x` (R180 (2)). -/
theorem State.reg_VF_setRegFlag (s : State) (x : Reg) (b : Byte) (f : Bool) :
    (s.setRegFlag x b f).reg VF = flagByte f := by
  rw [State.reg_setRegFlag, if_pos rfl]

/-- The result stands where it is not overwritten by the flag. -/
theorem State.reg_setRegFlag_of_ne (s : State) {x : Reg} (hx : x ≠ VF) (b : Byte) (f : Bool) :
    (s.setRegFlag x b f).reg x = b := by
  rw [State.reg_setRegFlag, if_neg hx, if_pos rfl]

/-- Settles O17: each form is one `setReg`. -/
theorem loadsWriteOneRegister : Obligations.LoadsWriteOneRegister := by
  intro x y kk s
  constructor
  case left => exact ⟨_, rfl, s.reg_setReg_same x kk, onlyRegsChange_setReg s x kk⟩
  case right => exact ⟨_, rfl, s.reg_setReg_same x (s.reg y), onlyRegsChange_setReg s x (s.reg y)⟩

/-- An instruction that writes a result with the given bits and a flag of 0: the part that the three logic
forms share. -/
theorem exec_resultBits_clearFlag {i : Instr} {s : State} {x : Reg} {result : Byte} {bit : Nat → Bool}
    (hexec : exec i s = .next (s.setRegFlag x result false))
    (hbit : ∀ b, result.getLsbD b = bit b) :
    ∃ t, exec i s = .next t ∧ (x ≠ VF → ∀ b, (t.reg x).getLsbD b = bit b) ∧
      t.reg VF = 0 ∧ OnlyRegsChange [x, VF] s t := by
  refine ⟨_, hexec, fun hx b => ?_, s.reg_VF_setRegFlag x result false,
    onlyRegsChange_setRegFlag s x result false⟩
  rw [s.reg_setRegFlag_of_ne hx, hbit]

/-- Settles O19: the bits of each result are those of the operands under the connective, and the flag
written after it is 0. -/
theorem logicClearsFlag : Obligations.LogicClearsFlag := by
  intro x y s
  refine ⟨?or, ?and, ?xor⟩
  case or => exact exec_resultBits_clearFlag rfl fun _ => BitVec.getLsbD_or
  case and => exact exec_resultBits_clearFlag rfl fun _ => BitVec.getLsbD_and
  case xor => exact exec_resultBits_clearFlag rfl fun _ => BitVec.getLsbD_xor

end Sys2Proof.Machine

/-! ### The index register and the decimal digits (R190, R195) -/

namespace Sys2Proof.Machine

theorem onlyIndexChanges_setIndex (s : State) (w : Word) : OnlyIndexChanges s (s.setIndex w) := by
  have hmem : SameBytes s (s.setIndex w) := memRead_congr rfl rfl
  have hdev : SameDevices s (s.setIndex w) := ⟨⟨rfl, rfl, rfl, rfl⟩, ⟨rfl, rfl⟩, ⟨rfl, rfl⟩, rfl⟩
  exact ⟨fun _ _ => rfl, rfl, ⟨rfl, rfl⟩, hmem, hdev, rfl⟩

/-- Settles O24: the instruction is one `setIndex`. -/
theorem loadIndex : Obligations.LoadIndex :=
  fun nnn s => ⟨_, rfl, s.setIndex_index nnn, onlyIndexChanges_setIndex s nnn⟩

/-- Consecutive bytes written read back, each at its offset. -/
theorem Memory.read_writeBytes_offset {m : Memory} (hm : Memory.Wf m) (a : Nat) {bs : List Byte}
    {k : Nat} (hk : k < bs.length) : (m.writeBytes a bs).read (a + k) = bs[k] := by
  have hsub : a + k - a = k := Nat.add_sub_cancel_left a k
  simp [Memory.read_writeBytes hm, hsub, hk]

/-- Writing consecutive bytes leaves an address that is none of theirs alone. -/
theorem Memory.read_writeBytes_other {m : Memory} (hm : Memory.Wf m) {a q : Nat} {bs : List Byte}
    (h : ∀ k, k < bs.length → q ≠ a + k) : (m.writeBytes a bs).read q = m.read q := by
  rw [Memory.read_writeBytes hm, dif_neg]
  rintro ⟨hle, hlt⟩
  exact h (q - a) hlt (by omega)

/-- The digits of FX33 in the order they are stored. -/
def decimalDigits (b : Byte) : List Byte := [hundreds b, tens b, ones b]

@[simp] theorem length_decimalDigits (b : Byte) : (decimalDigits b).length = 3 := rfl

/-- The digit at offset `k` is the one of weight 10 to the power 2 - `k` (R195). -/
theorem decimalDigits_toNat (b : Byte) :
    ∀ k : Fin 3, (decimalDigits b)[k.val].toNat = b.toNat / 10 ^ (2 - k.val) % 10
  | 0 => by
    have hb := b.isLt
    change (hundreds b).toNat = b.toNat / 100 % 10
    rw [hundreds, BitVec.toNat_ofNat]
    omega
  | 1 => by
    change (tens b).toNat = b.toNat / 10 % 10
    rw [tens, BitVec.toNat_ofNat]
    omega
  | 2 => by
    change (ones b).toNat = b.toNat / 1 % 10
    rw [ones, BitVec.toNat_ofNat]
    omega

/-- The state FX33 leaves: the first `n` digits stored, and the run state `r`. -/
def digitsStored (x : Reg) (n : Nat) (r : RunState) (s : State) : State :=
  (s.setMem (s.mem.writeBytes (effectiveAddr s 0) ((decimalDigits (s.reg x)).take n))).setRunState r

/-- FX33 stores at least the digits whose addresses lie in Memory, and its run state tells whether all
three do. -/
theorem exec_ldB_eq_digitsStored (x : Reg) (s : State) :
    ∃ n r, exec (.ldB x) s = .next (digitsStored x n r s) ∧
      (∀ k, k < 3 → effectiveAddr s k < s.cfg.memSize → k < n) ∧
      (effectiveAddr s 2 < s.cfg.memSize → r = s.runState) ∧
      (s.cfg.memSize ≤ effectiveAddr s 2 →
        r = .haltedOnFault (.outOfBounds (max (effectiveAddr s 0) s.cfg.memSize))) := by
  simp only [effectiveAddr]
  rcases execLdB_cases x s with ⟨hfit, he⟩ | ⟨n, hn, hbefore, hbad, he⟩
  · exact ⟨3, s.runState, he, fun k hk _ => hk, fun _ => rfl, fun hout => by omega⟩
  · have hmax : s.index.toNat + n = max (s.index.toNat + 0) s.cfg.memSize := by
      cases n with
      | zero => omega
      | succ n => have := hbefore n n.lt_succ_self; omega
    exact ⟨n, _, he, fun k _ hlt => by omega, fun hlt => by omega, fun _ => by rw [hmax]⟩

section

variable {x : Reg} {n : Nat} {r : RunState} {s : State} (hm : Memory.Wf s.mem)
include hm

/-- A digit stored is the byte read. -/
theorem read_digitsStored {k : Fin 3} (hk : k.val < n) :
    ((digitsStored x n r s).mem.read (effectiveAddr s k.val)).toNat =
      (s.reg x).toNat / 10 ^ (2 - k.val) % 10 := by
  have hlen : k.val < ((decimalDigits (s.reg x)).take n).length := by
    rw [List.length_take, length_decimalDigits]
    omega
  calc ((digitsStored x n r s).mem.read (effectiveAddr s k.val)).toNat
      = (((decimalDigits (s.reg x)).take n)[k.val]).toNat :=
        congrArg BitVec.toNat (Memory.read_writeBytes_offset hm _ hlen)
    _ = ((decimalDigits (s.reg x))[k.val]).toNat := by rw [List.getElem_take]
    _ = _ := decimalDigits_toNat _ k

/-- Only the three addresses of the digits may read otherwise than before. -/
theorem sameBytesBut_digitsStored :
    SameBytesBut (fun a => ∃ k : Fin 3, a = effectiveAddr s k.val) s (digitsStored x n r s) := by
  intro a ha
  have hread : (digitsStored x n r s).mem.read a = s.mem.read a := by
    refine Memory.read_writeBytes_other hm fun k hk hak => ?_
    rw [List.length_take, length_decimalDigits] at hk
    exact ha ⟨⟨k, by omega⟩, hak⟩
  have hcfg : (digitsStored x n r s).cfg = s.cfg := rfl
  simp only [memRead, hcfg, hread]

end

/-- Settles O26: the state left is `digitsStored`, in which the digits whose addresses lie in Memory read
back. -/
theorem decimalDigitsStored : Obligations.DecimalDigitsStored := by
  intro x s hm
  obtain ⟨n, r, hexec, hstored, hfit, hout⟩ := exec_ldB_eq_digitsStored x s
  have hdigit : ∀ k : Fin 3, effectiveAddr s k.val < s.cfg.memSize →
      ∃ d, memRead (effectiveAddr s k.val) (digitsStored x n r s) = .ok d ∧
        d.toNat = (s.reg x).toNat / 10 ^ (2 - k.val) % 10 := fun k hlt =>
    ⟨_, memRead_ok hlt, read_digitsStored hm (hstored k k.isLt hlt)⟩
  have hdev : SameDevices s (digitsStored x n r s) :=
    ⟨⟨rfl, rfl, rfl, rfl⟩, ⟨rfl, rfl⟩, ⟨rfl, rfl⟩, rfl⟩
  exact ⟨_, hexec, hdigit, sameBytesBut_digitsStored hm, fun _ _ => rfl, rfl, rfl, ⟨rfl, rfl⟩, hdev,
    hfit, hout⟩

end Sys2Proof.Machine

/-! ### The fields of an encoded word, and the statements on the decoder (R91 to R103) -/

namespace Sys2Proof

section

variable {n3 : Nat} (h3 : n3 < 16)
include h3

theorem nibble3_formatA {nnn : Word} (h : nnn.toNat < 4096) : nibble3 (formatA n3 nnn) = n3 := by
  rw [nibble3_eq, formatA_toNat h3 h]
  omega

theorem fieldNNN_formatA {nnn : Word} (h : nnn.toNat < 4096) : fieldNNN (formatA n3 nnn) = nnn := by
  apply BitVec.eq_of_toNat_eq
  rw [fieldNNN_toNat, formatA_toNat h3 h]
  omega

variable (x y : Reg)

theorem nibble3_formatXK (kk : Byte) : nibble3 (formatXK n3 x kk) = n3 := by
  have hkk := kk.isLt
  rw [nibble3_eq, formatXK_toNat h3]
  omega

theorem fieldX_formatXK (kk : Byte) : fieldX (formatXK n3 x kk) = x := by
  have hkk := kk.isLt
  apply Fin.ext
  rw [fieldX_val, formatXK_toNat h3]
  omega

theorem fieldKK_formatXK (kk : Byte) : fieldKK (formatXK n3 x kk) = kk := by
  apply BitVec.eq_of_toNat_eq
  rw [fieldKK_toNat, formatXK_toNat h3]
  omega

section

variable {n0 : Nat} (h0 : n0 < 16)
include h0

theorem nibble3_formatXYN : nibble3 (formatXYN n3 x y n0) = n3 := by
  rw [nibble3_eq, formatXYN_toNat h3 h0]
  omega

theorem nibble0_formatXYN : nibble0 (formatXYN n3 x y n0) = n0 := by
  rw [nibble0_eq, formatXYN_toNat h3 h0]
  omega

theorem fieldN_formatXYN : fieldN (formatXYN n3 x y n0) = n0 := nibble0_formatXYN h3 x y h0

theorem fieldX_formatXYN : fieldX (formatXYN n3 x y n0) = x := by
  apply Fin.ext
  rw [fieldX_val, formatXYN_toNat h3 h0]
  omega

theorem fieldY_formatXYN : fieldY (formatXYN n3 x y n0) = y := by
  apply Fin.ext
  rw [fieldY_val, formatXYN_toNat h3 h0]
  omega

end

section

variable {low : Nat} (hl : low < 256)
include hl

theorem nibble3_formatXF : nibble3 (formatXF n3 x low) = n3 := by
  rw [nibble3_eq, formatXF_toNat h3 hl]
  omega

theorem fieldX_formatXF : fieldX (formatXF n3 x low) = x := by
  apply Fin.ext
  rw [fieldX_val, formatXF_toNat h3 hl]
  omega

theorem fieldKK_formatXF : (fieldKK (formatXF n3 x low)).toNat = low := by
  rw [fieldKK_toNat, formatXF_toNat h3 hl]
  omega

end

end

/-- Every field is read back where the format put it, so the dispatch takes the instruction's own arm. -/
theorem decode_encode {i : Instr} (h : i.wellFormed = true) : decode (encode i) = .ok i := by
  cases i
  case cls | ret => rfl
  -- format `A`
  case jp | call | ldI | jpV0 =>
    have hfit := of_decide_eq_true h
    simp [decode, encode, nibble3_formatA, fieldNNN_formatA, hfit]
  -- format `XK`
  case seImm | sneImm | ldImm | addImm | rnd =>
    simp [decode, encode, nibble3_formatXK, fieldX_formatXK, fieldKK_formatXK]
  -- format `XYN`
  case drw =>
    have hfit := of_decide_eq_true h
    simp [decode, encode, nibble3_formatXYN, fieldX_formatXYN, fieldY_formatXYN, fieldN_formatXYN, hfit]
  -- format `XY`
  case seReg | sneReg =>
    simp [decode, encode, decodeXY0, nibble3_formatXYN, nibble0_formatXYN, fieldX_formatXYN,
      fieldY_formatXYN]
  case ldReg | orReg | andReg | xorReg | addReg | subReg | shrReg | subnReg | shlReg =>
    simp [decode, encode, decode8, nibble3_formatXYN, nibble0_formatXYN, fieldX_formatXYN,
      fieldY_formatXYN]
  -- format `XF`
  case skp | sknp =>
    simp [decode, encode, decodeE, nibble3_formatXF, fieldX_formatXF, fieldKK_formatXF]
  case ldVxDt | ldVxK | ldDtVx | ldStVx | addI | ldF | ldB | storeRegs | loadRegs =>
    simp [decode, encode, decodeF, nibble3_formatXF, fieldX_formatXF, fieldKK_formatXF]

/-- Settles O2, by the format of the instruction. -/
theorem decodeOfEncode : Obligations.DecodeOfEncode := fun _ h => decode_encode h

/-- Settles O3, by the group of the word. -/
theorem encodeOfDecode : Obligations.EncodeOfDecode := fun _ _ h => encode_of_decode h

/-- The decoder has one way to reject a word (R103). -/
theorem reject_of_decode_error {w : Word} {e : DecodeReject} (h : decode w = .error e) :
    e = .unknownOpcode w := by
  unfold decode at h
  split at h
  case h_1 => unfold decode0 at h; split_ifs at h; cases h; rfl
  case h_6 | h_10 => unfold decodeXY0 at h; split at h <;> cases h; rfl
  case h_9 => unfold decode8 at h; split at h <;> cases h; rfl
  case h_15 => unfold decodeE at h; split at h <;> cases h; rfl
  case h_16 => unfold decodeF at h; split at h <;> cases h; rfl
  all_goals cases h

/-- Settles O4: the word of a decoded instruction is of its row, a word of a row decodes to an instruction
of that row, and a word decodes to one instruction only. -/
theorem decoderAgreesWithMasks : Obligations.DecoderAgreesWithMasks := by
  intro w
  refine ⟨fun i hd => ⟨row_mem_opcodeTable i, matchesRow_of_decode hd⟩, ?_, fun hnone => ?_, ?_⟩
  · rintro ⟨r, hr, hmatch⟩
    obtain ⟨i, hd, -⟩ := exists_decode_of_row hr hmatch
    exact ⟨i, hd⟩
  · obtain ⟨e, hd⟩ := decode_error_of_no_row hnone
    rw [hd, reject_of_decode_error hd]
  · intro r hr q hq hmatch hmatch'
    obtain ⟨i, hd, rfl⟩ := exists_decode_of_row hr hmatch
    obtain ⟨j, hd', rfl⟩ := exists_decode_of_row hq hmatch'
    rw [Except.ok.inj (hd.symm.trans hd')]

/-- Settles O1, by running the decoder. -/
theorem writtenWordsDecode : Obligations.WrittenWordsDecode := by
  unfold Obligations.WrittenWordsDecode
  decide

end Sys2Proof

/-! ### One step, and the machine at rest (R122 to R128, R262) -/

namespace Sys2Proof.Machine

/-- The byte a read answers is the byte of Memory at an address below the bound (R62). -/
theorem memRead_eq_ok_iff {a : Nat} {b : Byte} {s : State} :
    memRead a s = .ok b ↔ a < s.cfg.memSize ∧ s.mem.read a = b := by
  rcases memRead_cases a s with ⟨hlt, he⟩ | ⟨hle, he⟩
  · simp [he, hlt]
  · simp [he, Nat.not_lt.2 hle]

/-- The fetch is the word of the bytes at `pc` and `pc + 1` (R64, R123). -/
theorem fetch_of_memRead {s : State} {hi lo : Byte} (hhi : memRead s.pc.toNat s = .ok hi)
    (hlo : memRead (s.pc.toNat + 1) s = .ok lo) : fetch s = .ok (wordOfBytes hi lo) := by
  obtain ⟨-, rfl⟩ := memRead_eq_ok_iff.1 hhi
  obtain ⟨hlt, rfl⟩ := memRead_eq_ok_iff.1 hlo
  rcases memReadWord_cases s.pc.toNat s with ⟨-, hf⟩ | ⟨hle, -⟩
  · exact hf
  · omega

/-- Two bytes decode as the instruction of their word, with nothing left over. -/
theorem decode_of_decodeBytes {hi lo : Byte} {i : Instr} (h : decodeBytes [hi, lo] = .ok (i, [])) :
    decode (wordOfBytes hi lo) = .ok i := by
  cases hd : decode (wordOfBytes hi lo) with
  | error e => simp [decodeBytes, hd, Except.map] at h
  | ok j => simpa [decodeBytes, hd, Except.map] using h

/-- Settles O5: the two bytes are the fetched word. -/
theorem stepRunsDecodedInstruction : Obligations.StepRunsDecodedInstruction :=
  fun _ _ _ _ hr hhi hlo hd => step_decoded hr (fetch_of_memRead hhi hlo) (decode_of_decodeBytes hd)

/-- A machine that a step leaves as it is stays so for a batch of any length. -/
theorem runBatch_of_step_self {s : State} (h : step s = .next s) : ∀ n, runBatch n s = .next s
  | 0 => rfl
  | n + 1 => by rw [runBatch, h]; exact runBatch_of_step_self h n

theorem isRunning_iff {s : State} : s.isRunning = true ↔ s.runState = .running := by
  simp [State.isRunning]

/-- An update of a halted machine counts the delay and sound timers and runs nothing (R130, D22). -/
theorem update_halted {s : State} (h : s.runState ≠ .running) {delta : Time} (hd : 0 ≤ delta) :
    update delta s = .next (s.countTimers delta).markStarted := by
  have hrun : ¬ ((s.countTimers delta).markStarted.isRunning = true) := mt isRunning_iff.1 h
  simp only [update, if_neg (not_lt.2 hd), if_neg hrun]

/-- Settles O8: nothing steps, and the update of a halted machine is its two countdowns. -/
theorem haltedMachineRunsNothing : Obligations.HaltedMachineRunsNothing := by
  intro s hs
  refine ⟨step_halted hs, runBatch_of_step_self (step_halted hs), fun delta hd => ?_⟩
  have hmem : SameBytes s (s.countTimers delta).markStarted := memRead_congr rfl rfl
  exact ⟨_, update_halted hs hd, rfl, rfl, fun _ _ => rfl, rfl, rfl, ⟨rfl, rfl⟩, hmem, ⟨rfl, rfl⟩,
    ⟨rfl, rfl⟩, rfl, rfl, rfl, rfl⟩

/-- Every instruction answers a next state (R262). -/
theorem exec_next (i : Instr) (s : State) : ∃ t, exec i s = .next t := by
  cases i
  case ret =>
    rcases Nat.eq_zero_or_pos s.sp.val with h | h
    · exact ⟨_, execRet_empty h⟩
    · exact ⟨_, execRet_entry h⟩
  case jp nnn =>
    by_cases h : nnn = s.pc - 2
    · exact ⟨_, if_pos h⟩
    · exact ⟨_, if_neg h⟩
  case call nnn =>
    rcases Nat.lt_or_ge s.sp.val 16 with h | h
    · exact ⟨_, execCall_room h nnn⟩
    · exact ⟨_, execCall_full (by omega) nnn⟩
  case drw x y n =>
    rcases execDrw_cases x y n s with ⟨_, he⟩ | ⟨_, _, _, _, _, ⟨_, he⟩ | ⟨_, _, _, _, he⟩⟩
    all_goals exact ⟨_, he⟩
  case skp x =>
    rcases keyOperand_cases (s.reg x) with ⟨_, hk⟩ | ⟨_, hk⟩
    all_goals exact ⟨_, by simp only [exec, execSkp, hk]; rfl⟩
  case sknp x =>
    rcases keyOperand_cases (s.reg x) with ⟨_, hk⟩ | ⟨_, hk⟩
    all_goals exact ⟨_, by simp only [exec, execSknp, hk]; rfl⟩
  case ldVxK x =>
    rcases execLdVxK_cases x s with ⟨_, _, he⟩ | ⟨_, _, _, _, he⟩ | ⟨_, _, he⟩ | ⟨_, _, he⟩
    all_goals exact ⟨_, he⟩
  case ldB x =>
    rcases execLdB_cases x s with ⟨_, he⟩ | ⟨_, _, _, _, he⟩
    all_goals exact ⟨_, he⟩
  case storeRegs x =>
    rcases execStoreRegs_cases x s with ⟨_, he⟩ | ⟨_, _, _, _, he⟩
    all_goals exact ⟨_, he⟩
  case loadRegs x =>
    rcases execLoadRegs_cases x s with ⟨_, he⟩ | ⟨_, _, _, _, he⟩
    all_goals exact ⟨_, he⟩
  -- the other meanings have one outcome, written as a next state
  all_goals exact ⟨_, rfl⟩

/-- Every step answers a next state (R262). -/
theorem step_next (s : State) : ∃ t, step s = .next t := by
  rcases step_cases s with ⟨_, he⟩ | ⟨_, _, he⟩ | ⟨_, _, _, _, _, he⟩ | ⟨_, i, _, _, _, he⟩
  · exact ⟨_, he⟩
  · exact ⟨_, he⟩
  · exact ⟨_, he⟩
  · obtain ⟨t, ht⟩ := exec_next i s.advance
    exact ⟨t, he.trans ht⟩

/-- Settles O9. -/
theorem everyStepAnswersNext : Obligations.EveryStepAnswersNext := ⟨exec_next, step_next⟩

end Sys2Proof.Machine

/-! ### What a block move leaves alone (R196, R197) -/

namespace Sys2Proof.Machine

section

variable (rs : List Reg) (s : State)

/-! A block store writes Memory and the index register. -/

@[simp] theorem storedRegs_cfg : (storedRegs rs s).cfg = s.cfg := by rw [storedRegs_eq]; rfl
@[simp] theorem storedRegs_regs : (storedRegs rs s).regs = s.regs := by rw [storedRegs_eq]; rfl
@[simp] theorem storedRegs_index :
    (storedRegs rs s).index = s.index + BitVec.ofNat 16 rs.length := by rw [storedRegs_eq]; rfl
@[simp] theorem storedRegs_pc : (storedRegs rs s).pc = s.pc := by rw [storedRegs_eq]; rfl
@[simp] theorem storedRegs_stack : (storedRegs rs s).stack = s.stack := by rw [storedRegs_eq]; rfl
@[simp] theorem storedRegs_sp : (storedRegs rs s).sp = s.sp := by rw [storedRegs_eq]; rfl
@[simp] theorem storedRegs_runState : (storedRegs rs s).runState = s.runState := by
  rw [storedRegs_eq]; rfl
@[simp] theorem storedRegs_delayTimer : (storedRegs rs s).delayTimer = s.delayTimer := by
  rw [storedRegs_eq]; rfl
@[simp] theorem storedRegs_soundTimer : (storedRegs rs s).soundTimer = s.soundTimer := by
  rw [storedRegs_eq]; rfl
@[simp] theorem storedRegs_vsyncTimer : (storedRegs rs s).vsyncTimer = s.vsyncTimer := by
  rw [storedRegs_eq]; rfl
@[simp] theorem storedRegs_instrTimer : (storedRegs rs s).instrTimer = s.instrTimer := by
  rw [storedRegs_eq]; rfl
@[simp] theorem storedRegs_bitgrid : (storedRegs rs s).bitgrid = s.bitgrid := by
  rw [storedRegs_eq]; rfl
@[simp] theorem storedRegs_changed : (storedRegs rs s).changed = s.changed := by
  rw [storedRegs_eq]; rfl
@[simp] theorem storedRegs_keys : (storedRegs rs s).keys = s.keys := by rw [storedRegs_eq]; rfl
@[simp] theorem storedRegs_haltLatch : (storedRegs rs s).haltLatch = s.haltLatch := by
  rw [storedRegs_eq]; rfl
@[simp] theorem storedRegs_started : (storedRegs rs s).started = s.started := by
  rw [storedRegs_eq]; rfl
@[simp] theorem storedRegs_reg (q : Reg) : (storedRegs rs s).reg q = s.reg q := by
  rw [storedRegs_eq]; rfl

/-! A block load writes registers and the index register. -/

@[simp] theorem loadedRegs_cfg : (loadedRegs rs s).cfg = s.cfg := by rw [loadedRegs_eq]
@[simp] theorem loadedRegs_mem : (loadedRegs rs s).mem = s.mem := by rw [loadedRegs_eq]
@[simp] theorem loadedRegs_index :
    (loadedRegs rs s).index = s.index + BitVec.ofNat 16 rs.length := by rw [loadedRegs_eq]
@[simp] theorem loadedRegs_pc : (loadedRegs rs s).pc = s.pc := by rw [loadedRegs_eq]
@[simp] theorem loadedRegs_stack : (loadedRegs rs s).stack = s.stack := by rw [loadedRegs_eq]
@[simp] theorem loadedRegs_sp : (loadedRegs rs s).sp = s.sp := by rw [loadedRegs_eq]
@[simp] theorem loadedRegs_runState : (loadedRegs rs s).runState = s.runState := by
  rw [loadedRegs_eq]
@[simp] theorem loadedRegs_delayTimer : (loadedRegs rs s).delayTimer = s.delayTimer := by
  rw [loadedRegs_eq]
@[simp] theorem loadedRegs_soundTimer : (loadedRegs rs s).soundTimer = s.soundTimer := by
  rw [loadedRegs_eq]
@[simp] theorem loadedRegs_vsyncTimer : (loadedRegs rs s).vsyncTimer = s.vsyncTimer := by
  rw [loadedRegs_eq]
@[simp] theorem loadedRegs_instrTimer : (loadedRegs rs s).instrTimer = s.instrTimer := by
  rw [loadedRegs_eq]
@[simp] theorem loadedRegs_bitgrid : (loadedRegs rs s).bitgrid = s.bitgrid := by
  rw [loadedRegs_eq]
@[simp] theorem loadedRegs_changed : (loadedRegs rs s).changed = s.changed := by
  rw [loadedRegs_eq]
@[simp] theorem loadedRegs_keys : (loadedRegs rs s).keys = s.keys := by rw [loadedRegs_eq]
@[simp] theorem loadedRegs_haltLatch : (loadedRegs rs s).haltLatch = s.haltLatch := by
  rw [loadedRegs_eq]
@[simp] theorem loadedRegs_started : (loadedRegs rs s).started = s.started := by
  rw [loadedRegs_eq]

end

/-! ### Which instruction writes what (R22, R23, R25, R26, R29 to R32, R260) -/

theorem regDests_of_plainDest {i : Instr} {x : Reg} (h : plainDest i = some x) :
    i.regDests = [x] := by
  cases i <;> cases h <;> rfl

theorem regDests_of_flagDest {i : Instr} {x : Reg} (h : flagDest i = some x) :
    i.regDests = [x, VF] := by
  cases i <;> cases h <;> rfl

section

variable {s t : State} {i : Instr}

theorem sameRegsBut_setReg {rs : List Reg} {x : Reg} (hx : x ∈ rs) (b : Byte) :
    SameRegsBut rs s (s.setReg x b) :=
  fun _ hq => s.reg_setReg_other (ne_of_mem_of_not_mem hx hq).symm b

/-- An instruction writes no general register but its destinations. -/
theorem Effect.sameRegsBut (h : Effect s i t) : SameRegsBut i.regDests s t := by
  cases h
  case toReg x b hi =>
    rw [regDests_of_plainDest hi]
    exact sameRegsBut_setReg (by simp) b
  case toRegFlag x b f hi =>
    rw [regDests_of_flagDest hi]
    obtain ⟨hregs, -⟩ := onlyRegsChange_setRegFlag s x b f
    exact hregs
  case random x _ b => exact sameRegsBut_setReg (s := s.drawRand) List.mem_cons_self b
  case drawn g hit hv hg =>
    exact sameRegsBut_setReg (s := s.setGrid g) List.mem_cons_self (flagByte hit)
  case latched x k hl => exact sameRegsBut_setReg List.mem_cons_self (BitVec.ofNat 8 k.val)
  case loaded rs hrs hn => exact fun q hq => (loadedRegs_reg rs hn).2 q (mt (hrs q) hq)
  case loadedStopped rs a hrs hn ha => exact fun q hq => (loadedRegs_reg rs hn).2 q (mt (hrs q) hq)
  case stored rs _ | storedStopped rs _ _ _ => exact fun q _ => storedRegs_reg rs s q
  all_goals exact fun _ _ => rfl

/-- What no instruction writes: the configuration, the keys, the accumulators, the instruction timer, and
the model's own record that the host has called `update`. -/
theorem Effect.fixed (h : Effect s i t) :
    t.cfg = s.cfg ∧ t.keys = s.keys ∧ t.instrTimer = s.instrTimer ∧
    t.delayTimer.acc = s.delayTimer.acc ∧ t.soundTimer.acc = s.soundTimer.acc ∧
    t.vsyncTimer.acc = s.vsyncTimer.acc ∧ t.started = s.started := by
  cases h <;> simp

theorem Effect.cfg_eq (h : Effect s i t) : t.cfg = s.cfg := h.fixed.1

theorem Effect.mem_eq (h : Effect s i t) (hldB : ∀ x, i ≠ .ldB x) (hstore : ∀ x, i ≠ .storeRegs x) :
    t.mem = s.mem := by
  cases h
  case digits | digitsStopped => exact absurd rfl (hldB _)
  case stored | storedStopped => exact absurd rfl (hstore _)
  all_goals simp

theorem Effect.sameDisplay (h : Effect s i t) (hcls : i ≠ .cls) (hdrw : ∀ x y n, i ≠ .drw x y n) :
    SameDisplay s t := by
  cases h
  case clear => exact absurd rfl hcls
  case gated | drawn | drawStopped => exact absurd rfl (hdrw _ _ _)
  all_goals simp [SameDisplay]

theorem Effect.changed_mono (h : Effect s i t) (hs : s.changed = true) : t.changed = true := by
  cases h <;> simp [hs]

theorem Effect.sameStack (h : Effect s i t) (hret : i ≠ .ret) (hcall : ∀ nnn, i ≠ .call nnn) :
    SameStack s t := by
  cases h
  case underflow | popped => exact absurd rfl hret
  case overflow | pushed => exact absurd rfl (hcall _)
  all_goals simp [SameStack]

theorem Effect.index_eq (h : Effect s i t) (hldI : ∀ nnn, i ≠ .ldI nnn) (haddI : ∀ x, i ≠ .addI x)
    (hldF : ∀ x, i ≠ .ldF x) (hstore : ∀ x, i ≠ .storeRegs x) (hload : ∀ x, i ≠ .loadRegs x) :
    t.index = s.index := by
  cases h
  case toIndex hi =>
    cases i <;> cases hi
    case ldI => exact absurd rfl (hldI _)
    case addI => exact absurd rfl (haddI _)
    case ldF => exact absurd rfl (hldF _)
  case stored | storedStopped => exact absurd rfl (hstore _)
  case loaded | loadedStopped => exact absurd rfl (hload _)
  all_goals rfl

theorem Effect.delayTimer_eq (h : Effect s i t) (hi : ∀ x, i ≠ .ldDtVx x) :
    t.delayTimer = s.delayTimer := by
  cases h
  case toDT => exact absurd rfl (hi _)
  all_goals simp

theorem Effect.soundTimer_eq (h : Effect s i t) (hi : ∀ x, i ≠ .ldStVx x) :
    t.soundTimer = s.soundTimer := by
  cases h
  case toST => exact absurd rfl (hi _)
  all_goals simp

/-- Only a draw that is not gated writes the vsync timer. -/
theorem Effect.vsyncTimer_eq (h : Effect s i t) (hi : (∀ x y n, i ≠ .drw x y n) ∨ s.vs ≠ 0) :
    t.vsyncTimer = s.vsyncTimer := by
  cases h
  case drawn hv _ => exact absurd hv (hi.resolve_left fun hne => hne _ _ _ rfl)
  all_goals simp

theorem Effect.haltLatch_eq (h : Effect s i t) (hi : ∀ x, i ≠ .ldVxK x) :
    t.haltLatch = s.haltLatch := by
  cases h
  case waits | latched | released => exact absurd rfl (hi _)
  all_goals simp

end

/-- Settles O56. -/
theorem registerWriters : Obligations.RegisterWriters := fun _ _ _ h => (exec_effect h).sameRegsBut

/-- Settles O57, each clause by the writers of that part of the state. -/
theorem memoryAndDisplayWriters : Obligations.MemoryAndDisplayWriters := by
  intro i s t h
  have heff := exec_effect h
  exact ⟨fun hldB hstore => memRead_congr heff.cfg_eq (heff.mem_eq hldB hstore), heff.sameDisplay,
    heff.changed_mono, heff.sameStack, heff.index_eq⟩

/-- Settles O58, each clause by the writers of that timer or latch. -/
theorem deviceWriters : Obligations.DeviceWriters := by
  intro i s t h
  have heff := exec_effect h
  obtain ⟨hcfg, hkeys, hinstr, hdelay, hsound, hvsync, -⟩ := heff.fixed
  exact ⟨hcfg, hkeys, hinstr, hdelay, hsound, hvsync,
    fun hi => congrArg Timer.value (heff.delayTimer_eq hi),
    fun hi => congrArg Timer.value (heff.soundTimer_eq hi),
    fun hi => congrArg Timer.value (heff.vsyncTimer_eq (.inl hi)), heff.haltLatch_eq⟩

/-- The instruction `i` is one that the fault table names for the fault `f` raised from `s` (R260). -/
def FaultRow (s : State) (i : Instr) (f : Fault) : Prop :=
  (f = .stackUnderflow ∧ i = .ret) ∨ (f = .stackOverflow ∧ ∃ nnn, i = .call nnn) ∨
  (∃ x, f = .invalidKey (s.reg x).toNat ∧ 15 < (s.reg x).toNat ∧ (i = .skp x ∨ i = .sknp x)) ∨
  (∃ a, f = .outOfBounds a ∧ s.cfg.memSize ≤ a ∧
    ((∃ x y n, i = .drw x y n) ∨ (∃ x, i = .ldB x) ∨ (∃ x, i = .storeRegs x) ∨
      ∃ x, i = .loadRegs x))

/-- What an instruction can make of the run state: it stays, the jump halts on itself, or a fault of the
instruction's row is taken. -/
theorem Effect.runState_cases {s t : State} {i : Instr} (h : Effect s i t) :
    t.runState = s.runState ∨
    (t.runState = .haltedOnInfiniteLoop ∧ i = .jp (s.pc - 2)) ∨
    ∃ f, t.runState = .haltedOnFault f ∧ FaultRow s i f := by
  cases h
  case selfJump nnn hself => exact .inr (.inl ⟨rfl, congrArg Instr.jp hself⟩)
  case underflow => exact .inr (.inr ⟨_, rfl, .inl ⟨rfl, rfl⟩⟩)
  case overflow => exact .inr (.inr ⟨_, rfl, .inr (.inl ⟨rfl, _, rfl⟩)⟩)
  case badKey x hk hi => exact .inr (.inr ⟨_, rfl, .inr (.inr (.inl ⟨x, rfl, hk, hi⟩))⟩)
  case drawStopped a _ _ ha =>
    exact .inr (.inr ⟨_, rfl, .inr (.inr (.inr ⟨a, rfl, ha, .inl ⟨_, _, _, rfl⟩⟩))⟩)
  case digitsStopped a _ ha =>
    exact .inr (.inr ⟨_, rfl, .inr (.inr (.inr ⟨a, rfl, ha, .inr (.inl ⟨_, rfl⟩)⟩))⟩)
  case storedStopped a _ ha =>
    exact .inr (.inr ⟨_, rfl, .inr (.inr (.inr ⟨a, rfl, ha, .inr (.inr (.inl ⟨_, rfl⟩))⟩))⟩)
  case loadedStopped a _ _ ha =>
    exact .inr (.inr ⟨_, rfl, .inr (.inr (.inr ⟨a, rfl, ha, .inr (.inr (.inr ⟨_, rfl⟩))⟩))⟩)
  all_goals exact .inl (by simp)

/-- Settles O59: of the three things an instruction can make of the run state, only the last is a fault.
-/
theorem faultsComeFromTheirInstructions : Obligations.FaultsComeFromTheirInstructions := by
  intro i s t f h hrun hfault
  rcases (exec_effect h).runState_cases with hsame | ⟨hloop, -⟩ | ⟨g, hg, hrow⟩
  · simp [hsame, hrun] at hfault
  · simp [hloop] at hfault
  · obtain rfl : g = f := by simpa [hg] using hfault
    exact hrow

/-- Settles O14: an instruction that leaves the machine halted with no fault is the self-jump, and the
self-jump does. -/
theorem onlySelfJumpHaltsOnPurpose : Obligations.OnlySelfJumpHaltsOnPurpose := by
  intro s t hrun hstep
  rcases step_cases s with ⟨hhalt, -⟩ | ⟨-, hle, he⟩ | ⟨w, e, -, hf, hd, he⟩ | ⟨w, i, -, hf, hd, he⟩
  · exact absurd hrun hhalt
  · obtain rfl := Host.Outcome.next.inj (he.symm.trans hstep)
    have hno : ¬ ∃ w, fetch s = .ok w ∧ decode w = .ok (.jp s.pc) := by
      rintro ⟨w, hf, -⟩
      rcases memReadWord_cases s.pc.toNat s with ⟨hlt, -⟩ | ⟨-, herr⟩
      · omega
      · cases hf.symm.trans herr
    simp [hno]
  · obtain rfl := Host.Outcome.next.inj (he.symm.trans hstep)
    simp [hf, hd]
  · have hexec : exec i s.advance = .next t := he.symm.trans hstep
    have hback : s.advance.pc - 2 = s.pc := advance_then_rewind s.pc
    constructor
    · intro hloop
      rcases (exec_effect hexec).runState_cases with hsame | ⟨-, hi⟩ | ⟨f, hfault, -⟩
      · simp [hsame, hrun] at hloop
      · exact ⟨w, hf, by rw [hd, hi, hback]⟩
      · simp [hfault] at hloop
    · rintro ⟨w', hf', hd'⟩
      obtain rfl : w = w' := Except.ok.inj (hf.symm.trans hf')
      obtain rfl : i = .jp s.pc := Except.ok.inj (hd.symm.trans hd')
      have hself : exec (.jp s.pc) s.advance =
          .next ((s.advance.setPc s.pc).setRunState .haltedOnInfiniteLoop) := if_pos hback.symm
      rw [hself] at hexec
      cases hexec
      rfl

end Sys2Proof.Machine

/-! ### The invariants (R35, R210, R238) -/

namespace Sys2Proof.Machine

/-! #### Memory and the bit grid under an instruction -/

/-- Every listed cell lies inside the bound of Memory. -/
def CellsBelow (bound : Nat) (m : Memory) : Prop := ∀ c ∈ m, c.1 < bound

theorem CellsBelow.write {bound : Nat} {m : Memory} (h : CellsBelow bound m) {a : Nat} (ha : a < bound)
    (b : Byte) : CellsBelow bound (m.write a b) := by
  intro c hc
  rcases Memory.mem_write hc with rfl | hc
  · exact ha
  · exact h c hc

theorem CellsBelow.writeBytes {bound : Nat} {m : Memory} (h : CellsBelow bound m) {a : Nat}
    {bs : List Byte} (hfit : ∀ k, k < bs.length → a + k < bound) :
    CellsBelow bound (m.writeBytes a bs) := by
  intro c hc
  rcases Memory.mem_writeBytes hc with hc | ⟨hle, hlt⟩
  · exact h c hc
  · have := hfit (c.1 - a) (by omega)
    omega

theorem CellsBelow.storedRegs {rs : List Reg} {s : State} (h : CellsBelow s.cfg.memSize s.mem)
    (hfit : ∀ k, k < rs.length → blockAddr s k < s.cfg.memSize) :
    CellsBelow s.cfg.memSize (storedRegs rs s).mem := by
  induction rs generalizing s with
  | nil => exact h
  | cons r rs ih =>
    have hfirst : s.index.toNat < s.cfg.memSize := blockAddr_zero s ▸ hfit 0 (by simp)
    refine ih (s := (s.setMem (s.mem.write s.index.toNat (s.reg r))).setIndex (s.index + 1))
      (h.write hfirst _) fun k hk => ?_
    rw [blockAddr_succ (s := s) rfl]
    exact hfit (k + 1) (by simpa using hk)

section

variable {s t : State} {i : Instr}

/-- An instruction keeps Memory canonical. -/
theorem Effect.mem_wf (h : Effect s i t) (hs : Memory.Wf s.mem) : Memory.Wf t.mem := by
  cases h
  case digits bs _ | digitsStopped bs _ _ _ => exact Memory.wf_writeBytes hs _ bs
  case stored rs _ | storedStopped rs _ _ _ => exact storedRegs_wf rs hs
  all_goals simpa using hs

/-- An instruction keeps Memory inside its bound. -/
theorem Effect.cellsBelow (h : Effect s i t) (hs : CellsBelow s.cfg.memSize s.mem) :
    CellsBelow s.cfg.memSize t.mem := by
  cases h
  case digits hfit | digitsStopped hfit _ => exact hs.writeBytes hfit
  case stored hfit | storedStopped hfit _ => exact hs.storedRegs hfit
  all_goals simpa using hs

/-- An instruction keeps the size of the bit grid. -/
theorem Effect.bitgrid_length (h : Effect s i t) : t.bitgrid.length = s.bitgrid.length := by
  cases h
  case clear => exact List.length_map _
  case drawn g hit hv hg | drawStopped g a hv hg ha => exact hg
  all_goals simp

end

/-! #### The invariant of a batch -/

/-- `Inv` without the latch and without the instruction timer, which holds a whole delta while a batch
runs (R130). -/
structure FrameInv (s : State) : Prop where
  cfg : s.cfg.Valid
  mem : Memory.Wf s.mem
  bound : CellsBelow s.cfg.memSize s.mem
  grid : s.bitgrid.length = s.cfg.width * s.cfg.height / 8
  delay : s.delayTimer.Settled Config.timerRate
  sound : s.soundTimer.Settled Config.timerRate
  vsync : s.vsyncTimer.Settled s.cfg.vsyncRate

/-- What holds of every state between two slots of a batch. -/
def BatchInv (s : State) : Prop := FrameInv s ∧ LatchLegal s

theorem inv_iff {s : State} : Inv s ↔ BatchInv s ∧ s.instrTimer.Settled s.cfg.instrRate := by
  constructor
  · rintro ⟨hcfg, hmem, hbound, hgrid, hdelay, hsound, hvsync, hinstr, hlatch⟩
    exact ⟨⟨⟨hcfg, hmem, hbound, hgrid, hdelay, hsound, hvsync⟩, hlatch⟩, hinstr⟩
  · rintro ⟨⟨⟨hcfg, hmem, hbound, hgrid, hdelay, hsound, hvsync⟩, hlatch⟩, hinstr⟩
    exact ⟨hcfg, hmem, hbound, hgrid, hdelay, hsound, hvsync, hinstr, hlatch⟩

/-- Settling is about the accumulator alone. -/
theorem Timer.Settled.of_acc_eq {rate : Rat} {t u : Timer} (h : t.Settled rate) (he : u.acc = t.acc) :
    u.Settled rate := by
  rw [Timer.Settled, he]
  exact h

theorem FrameInv.effect {s t : State} {i : Instr} (hs : FrameInv s) (h : Effect s i t) : FrameInv t := by
  obtain ⟨hcfg, -, -, hdelay, hsound, hvsync, -⟩ := h.fixed
  exact {
    cfg := hcfg ▸ hs.cfg
    mem := h.mem_wf hs.mem
    bound := hcfg ▸ h.cellsBelow hs.bound
    grid := by rw [h.bitgrid_length, hcfg, hs.grid]
    delay := hs.delay.of_acc_eq hdelay
    sound := hs.sound.of_acc_eq hsound
    vsync := hcfg ▸ hs.vsync.of_acc_eq hvsync }

theorem FrameInv.setPc {s : State} (hs : FrameInv s) (w : Word) : FrameInv (s.setPc w) :=
  ⟨hs.cfg, hs.mem, hs.bound, hs.grid, hs.delay, hs.sound, hs.vsync⟩

theorem FrameInv.setRunState {s : State} (hs : FrameInv s) (r : RunState) :
    FrameInv (s.setRunState r) :=
  ⟨hs.cfg, hs.mem, hs.bound, hs.grid, hs.delay, hs.sound, hs.vsync⟩

/-! #### The latch (R238) -/

theorem latchLegal_of_clear {s : State} (h : s.haltLatch = false) : LatchLegal s := fun hset => by
  simp [h] at hset

/-- The latch only looks at the fetch and the registers. -/
theorem LatchLegal.of_eq {s t : State} (h : LatchLegal s) (hl : t.haltLatch = s.haltLatch)
    (hf : fetch t = fetch s) (hr : ∀ r, t.reg r = s.reg r) : LatchLegal t := by
  intro hset
  obtain ⟨w, x, hw, hd, hx⟩ := h (hl ▸ hset)
  exact ⟨w, x, hf.trans hw, hd, (hr x).symm ▸ hx⟩

/-- A set latch means that the word at `pc` is an FX0A. -/
theorem LatchLegal.clear_of_decode_ne {s : State} {w : Word} (h : LatchLegal s) (hf : fetch s = .ok w)
    (hd : ∀ x, decode w ≠ .ok (.ldVxK x)) : s.haltLatch = false := by
  rw [Bool.eq_false_iff]
  intro hset
  obtain ⟨w', x, hf', hd', -⟩ := h hset
  obtain rfl : w = w' := Except.ok.inj (hf.symm.trans hf')
  exact hd x hd'

/-- FX0A at `pc` either waits, latches a key and rewinds, or clears the latch. -/
theorem LatchLegal.ldVxK {s t : State} {w : Word} {x : Reg} (h : LatchLegal s) (hf : fetch s = .ok w)
    (hd : decode w = .ok (.ldVxK x)) (he : Effect s.advance (.ldVxK x) t) : LatchLegal t := by
  cases he
  case toPc hi | toReg hi | toRegFlag hi | toIndex hi => cases hi
  case badKey _ hi => rcases hi with hi | hi <;> cases hi
  case waits =>
    have hrewound : s.advance.setPc (s.advance.pc - 2) = s := by simp
    rwa [hrewound]
  case latched k hl =>
    refine fun _ => ⟨w, x, ?_, hd, ?_⟩
    · rw [← hf]
      exact fetch_congr rfl rfl (advance_then_rewind s.pc)
    · have hk := k.isLt
      simp
      omega
  case released => exact latchLegal_of_clear rfl

/-! #### The step -/

/-- A step keeps the invariant of the batch. -/
theorem BatchInv.step {s t : State} (hs : BatchInv s) (h : step s = .next t) : BatchInv t := by
  obtain ⟨hframe, hlatch⟩ := hs
  rcases step_cases s with ⟨-, he⟩ | ⟨-, -, he⟩ | ⟨w, e, -, hf, hd, he⟩ | ⟨w, i, -, hf, hd, he⟩
  · obtain rfl := Host.Outcome.next.inj (he.symm.trans h)
    exact ⟨hframe, hlatch⟩
  · obtain rfl := Host.Outcome.next.inj (he.symm.trans h)
    exact ⟨hframe.setRunState _, hlatch.of_eq rfl rfl fun _ => rfl⟩
  · obtain rfl := Host.Outcome.next.inj (he.symm.trans h)
    have hclear := hlatch.clear_of_decode_ne hf (by simp [hd])
    exact ⟨(hframe.setPc _).setRunState _, latchLegal_of_clear hclear⟩
  · have heff : Effect s.advance i t := exec_effect (he.symm.trans h)
    refine ⟨(hframe.setPc _).effect heff, ?_⟩
    by_cases hi : ∃ x, i = .ldVxK x
    · obtain ⟨x, rfl⟩ := hi
      exact hlatch.ldVxK hf hd heff
    · have hne : ∀ x, i ≠ .ldVxK x := fun x hx => hi ⟨x, hx⟩
      have hclear := hlatch.clear_of_decode_ne hf (by simpa [hd] using hne)
      exact latchLegal_of_clear ((heff.haltLatch_eq hne).trans hclear)

/-- What no step writes: the configuration, the instruction timer, and the record that the host has called
`update`. -/
theorem step_fixed {s t : State} (h : step s = .next t) :
    t.cfg = s.cfg ∧ t.instrTimer = s.instrTimer ∧ t.started = s.started := by
  rcases step_cases s with ⟨-, he⟩ | ⟨-, -, he⟩ | ⟨_, _, -, -, -, he⟩ | ⟨_, i, -, -, -, he⟩
  · obtain rfl := Host.Outcome.next.inj (he.symm.trans h)
    exact ⟨rfl, rfl, rfl⟩
  · obtain rfl := Host.Outcome.next.inj (he.symm.trans h)
    exact ⟨rfl, rfl, rfl⟩
  · obtain rfl := Host.Outcome.next.inj (he.symm.trans h)
    exact ⟨rfl, rfl, rfl⟩
  · have heff : Effect s.advance i t := exec_effect (he.symm.trans h)
    obtain ⟨hcfg, -, hinstr, -, -, -, hstarted⟩ := heff.fixed
    exact ⟨hcfg, hinstr, hstarted⟩

/-- Settles O54: the step keeps the invariant of the batch and does not write the instruction timer. -/
theorem stepKeepsInvariants : Obligations.StepKeepsInvariants := by
  intro s t hs h
  rw [inv_iff] at hs ⊢
  obtain ⟨hbatch, hinstr⟩ := hs
  obtain ⟨hcfg, htimer, -⟩ := step_fixed h
  exact ⟨hbatch.step h, by rwa [hcfg, htimer]⟩

/-! #### The reset state -/

theorem timer_zero_settled (rate : Rat) : Timer.zero.Settled rate := by
  simp [Timer.Settled, Timer.zero]

theorem inv_initial {c : Config} (hc : c.Valid) : Inv (State.initial c) where
  cfg := hc
  mem := ⟨List.Pairwise.nil, by simp [State.initial]⟩
  bound := by simp [State.initial]
  grid := List.length_replicate
  delay := timer_zero_settled _
  sound := timer_zero_settled _
  vsync := timer_zero_settled _
  instr := timer_zero_settled _
  latch := latchLegal_of_clear rfl

/-- Construction answers the reset state of a legal configuration and nothing else (R300, R301). -/
theorem construct_cases (c : Config) :
    (c.Valid ∧ construct c = .next (State.initial c)) ∨
    (¬ c.Valid ∧ construct c = .refused .badConfig) := by
  by_cases hc : c.Valid
  · exact .inl ⟨hc, if_pos hc⟩
  · exact .inr ⟨hc, if_neg hc⟩

/-- Settles O53: nothing is listed in Memory, no time has passed and no key is latched. -/
theorem resetMeetsInvariants : Obligations.ResetMeetsInvariants := by
  refine ⟨inv_initial standard_valid, fun c s h => ?_⟩
  rcases construct_cases c with ⟨hc, he⟩ | ⟨-, he⟩
  · obtain rfl := Host.Outcome.next.inj (he.symm.trans h)
    exact ⟨inv_initial hc, fun _ => rfl⟩
  · cases he.symm.trans h

/-! #### The host's operations -/

/-- What every step keeps, a batch keeps. -/
theorem runBatch_keeps {P : State → Prop} (hstep : ∀ s t, P s → step s = .next t → P t) {n : Nat}
    {s t : State} (hs : P s) (h : runBatch n s = .next t) : P t := by
  induction n generalizing s with
  | zero => cases h; exact hs
  | succ n ih =>
    obtain ⟨u, hu⟩ := step_next s
    rw [runBatch, hu] at h
    exact ih (hstep s u hs hu) h

/-- A batch answers a next state. -/
theorem runBatch_next (n : Nat) (s : State) : ∃ t, runBatch n s = .next t := by
  induction n generalizing s with
  | zero => exact ⟨s, rfl⟩
  | succ n ih =>
    obtain ⟨u, hu⟩ := step_next s
    rw [runBatch, hu]
    exact ih u

theorem runBatch_fixed {n : Nat} {s t : State} (h : runBatch n s = .next t) :
    t.cfg = s.cfg ∧ t.instrTimer = s.instrTimer ∧ t.started = s.started :=
  runBatch_keeps (P := fun u => u.cfg = s.cfg ∧ u.instrTimer = s.instrTimer ∧ u.started = s.started)
    (fun _ _ ⟨hcfg, hinstr, hstarted⟩ hstep =>
      have ⟨hcfg', hinstr', hstarted'⟩ := step_fixed hstep
      ⟨hcfg'.trans hcfg, hinstr'.trans hinstr, hstarted'.trans hstarted⟩)
    ⟨rfl, rfl, rfl⟩ h

/-- The state in which the batch of an update begins (R130). -/
def State.timed (s : State) (delta : Time) : State :=
  ((s.countTimers delta).markStarted).countCpuTimers delta

/-- Everything an update can do: a negative delta is refused, a halted machine counts two timers, a
running one runs its batch (R130, R287). -/
theorem update_cases (delta : Time) (s : State) :
    (delta < 0 ∧ update delta s = .refused .negativeDelta) ∨
    (0 ≤ delta ∧ s.runState ≠ .running ∧ update delta s = .next (s.countTimers delta).markStarted) ∨
    (0 ≤ delta ∧ s.runState = .running ∧ ∃ u, runBatch (s.slots delta) (s.timed delta) = .next u ∧
      update delta s = .next (u.closeBatch (s.slots delta))) := by
  rcases lt_or_ge delta 0 with hd | hd
  · exact .inl ⟨hd, if_pos hd⟩
  · by_cases hrun : s.runState = .running
    · obtain ⟨u, hu⟩ := runBatch_next (s.slots delta) (s.timed delta)
      have htimed : (s.countTimers delta).markStarted.isRunning = true := isRunning_iff.2 hrun
      have hu' : runBatch (s.slots delta) ((s.countTimers delta).markStarted.countCpuTimers delta) =
          .next u := hu
      refine .inr (.inr ⟨hd, hrun, u, hu, ?_⟩)
      simp only [update, if_neg (not_lt.2 hd), htimed, if_true, hu']
    · exact .inr (.inl ⟨hd, hrun, update_halted hrun hd⟩)

/-- An update marks the machine as started (log entry 13). -/
theorem started_of_update {delta : Time} {s t : State} (h : update delta s = .next t) :
    t.started = true := by
  rcases update_cases delta s with ⟨-, he⟩ | ⟨-, -, he⟩ | ⟨-, -, u, hbatch, he⟩
  · cases he.symm.trans h
  · obtain rfl := Host.Outcome.next.inj (he.symm.trans h)
    rfl
  · obtain rfl := Host.Outcome.next.inj (he.symm.trans h)
    obtain ⟨-, -, hstarted⟩ := runBatch_fixed hbatch
    exact hstarted

/-- A settled timer that receives time holds no negative time. -/
theorem Timer.Settled.acc_add_nonneg {rate : Rat} {t : Timer} (h : t.Settled rate) {delta : Time}
    (hd : 0 ≤ delta) : 0 ≤ t.acc + delta :=
  add_nonneg h.1 hd

/-- The first two countdowns of an update keep `Inv`. -/
theorem Inv.countTimers {s : State} (hs : Inv s) {delta : Time} (hd : 0 ≤ delta) :
    Inv (s.countTimers delta).markStarted :=
  { hs with
    delay := countdown_settled (by norm_num) (hs.delay.acc_add_nonneg hd)
    sound := countdown_settled (by norm_num) (hs.sound.acc_add_nonneg hd)
    latch := hs.latch.of_eq rfl rfl fun _ => rfl }

/-- All countdowns of an update keep the invariant of the batch. -/
theorem Inv.timed {s : State} (hs : Inv s) {delta : Time} (hd : 0 ≤ delta) :
    BatchInv (s.timed delta) := by
  obtain ⟨⟨hframe, hlatch⟩, -⟩ := inv_iff.1 (hs.countTimers hd)
  obtain ⟨-, -, -, -, -, -, -, -, hrate⟩ := hs.cfg
  have hvsync := countdown_settled hrate (hs.vsync.acc_add_nonneg hd)
  exact ⟨{ hframe with vsync := hvsync }, hlatch.of_eq rfl rfl fun _ => rfl⟩

/-- The batch over, the instruction timer is settled and `Inv` holds again. -/
theorem BatchInv.closeBatch {s u : State} {delta : Time} (hs : Inv s) (hd : 0 ≤ delta)
    (hu : BatchInv u) (hcfg : u.cfg = s.cfg) (hinstr : u.instrTimer = s.instrTimer.accumulate delta) :
    Inv (u.closeBatch (s.slots delta)) := by
  obtain ⟨hframe, hlatch⟩ := hu
  obtain ⟨-, -, -, -, -, -, -, hrate, -⟩ := hs.cfg
  have hsettled := dropPeriods_settled (t := s.instrTimer.accumulate delta) hrate
    (hs.instr.acc_add_nonneg hd)
  refine inv_iff.2 ⟨⟨{ hframe with }, hlatch.of_eq rfl rfl fun _ => rfl⟩, ?_⟩
  simpa only [State.closeBatch, State.slots, hinstr, hcfg] using hsettled

theorem Inv.update {delta : Time} {s t : State} (hs : Inv s) (h : update delta s = .next t) :
    Inv t := by
  rcases update_cases delta s with ⟨-, he⟩ | ⟨hd, -, he⟩ | ⟨hd, -, u, hbatch, he⟩
  · cases he.symm.trans h
  · obtain rfl := Host.Outcome.next.inj (he.symm.trans h)
    exact hs.countTimers hd
  · obtain rfl := Host.Outcome.next.inj (he.symm.trans h)
    obtain ⟨hcfg, hinstr, -⟩ := runBatch_fixed hbatch
    have hu : BatchInv u := runBatch_keeps (fun _ _ => BatchInv.step) (hs.timed hd) hbatch
    exact hu.closeBatch hs hd hcfg hinstr

/-- The answers of a load: refused after the first update, `RomTooLarge`, or the ROM copied (R65, R286).
-/
theorem hostLoad_cases (rom : List Byte) (s : State) :
    (s.started = true ∧ hostLoad rom s = .refused .lateLoad) ∨
    (s.started = false ∧ s.cfg.memSize - s.cfg.start < rom.length ∧
      hostLoad rom s = .next (.romTooLarge, s)) ∨
    (s.started = false ∧ rom.length ≤ s.cfg.memSize - s.cfg.start ∧
      hostLoad rom s = .next (.done, s.setMem (s.mem.writeBytes s.cfg.start rom))) := by
  cases hst : s.started with
  | true => exact .inl ⟨rfl, by simp only [hostLoad, hst, if_true]⟩
  | false =>
    by_cases hlen : s.cfg.memSize - s.cfg.start < rom.length
    · exact .inr (.inl ⟨rfl, hlen, by simp [hostLoad, hst, romTooLarge, hlen]⟩)
    · exact .inr (.inr ⟨rfl, not_lt.1 hlen, by simp [hostLoad, hst, loadRom, romTooLarge, hlen]⟩)

/-- A ROM that fits keeps `Inv`, no key being latched. -/
theorem Inv.loadRom {s : State} (hs : Inv s) (hclear : s.haltLatch = false) {rom : List Byte}
    (hfit : rom.length ≤ s.cfg.memSize - s.cfg.start) :
    Inv (s.setMem (s.mem.writeBytes s.cfg.start rom)) :=
  { hs with
    mem := Memory.wf_writeBytes hs.mem _ _
    bound := CellsBelow.writeBytes hs.bound fun k hk => by omega
    latch := latchLegal_of_clear hclear }

theorem Inv.setKeys {s : State} (hs : Inv s) (k : BitVec 16) : Inv (s.setKeys k) :=
  { hs with latch := hs.latch.of_eq rfl rfl fun _ => rfl }

theorem Inv.setRunState {s : State} (hs : Inv s) (r : RunState) : Inv (s.setRunState r) :=
  { hs with latch := hs.latch.of_eq rfl rfl fun _ => rfl }

theorem Inv.setChanged {s : State} (hs : Inv s) (b : Bool) : Inv (s.setChanged b) :=
  { hs with latch := hs.latch.of_eq rfl rfl fun _ => rfl }

theorem SessionInv.badKey {s : State} (hs : SessionInv s) (id : Nat) : SessionInv (badKey id s) := by
  obtain ⟨hinv, hclear⟩ := hs
  unfold Machine.badKey
  split
  · exact ⟨hinv.setRunState _, hclear⟩
  · exact ⟨hinv, hclear⟩

theorem SessionInv.press {s : State} (hs : SessionInv s) (id : Nat) : SessionInv (press id s) := by
  unfold Machine.press
  split
  · exact ⟨hs.1.setKeys _, hs.2⟩
  · exact hs.badKey id

theorem SessionInv.release {s : State} (hs : SessionInv s) (id : Nat) : SessionInv (release id s) := by
  unfold Machine.release
  split
  · exact ⟨hs.1.setKeys _, hs.2⟩
  · exact hs.badKey id

/-- An update that answers, answers the run state it leaves (R287). -/
theorem hostUpdate_next {delta : Time} {s t : State} {reply : Reply}
    (h : hostUpdate delta s = .next (reply, t)) : update delta s = .next t := by
  unfold hostUpdate at h
  split at h <;> cases h
  assumption

/-- Settles O55, operation by operation: a load happens before the first update, where no key is latched,
and an update ends with the machine started. -/
theorem hostOperationsKeepInvariants : Obligations.HostOperationsKeepInvariants := by
  intro op reply s t hs h
  have hinv : Inv s := hs.1
  cases op
  case load rom =>
    rcases hostLoad_cases rom s with ⟨-, he⟩ | ⟨-, -, he⟩ | ⟨hst, hfit, he⟩
    · cases he.symm.trans h
    · cases he.symm.trans h
      exact hs
    · cases he.symm.trans h
      have hclear := hs.2 hst
      exact ⟨hinv.loadRom hclear hfit, fun _ => hclear⟩
  case update delta =>
    have hu := hostUpdate_next h
    exact ⟨hinv.update hu, fun hst => by simp [started_of_update hu] at hst⟩
  case press id => cases h; exact hs.press id
  case release id => cases h; exact hs.release id
  case resetChanged => cases h; exact ⟨hinv.setChanged false, hs.2⟩
  case isRunning | getPixel | getChanged | getSound | dimensions => cases h; exact hs

end Sys2Proof.Machine

/-! ### The countdown (R275) -/

namespace Sys2Proof.Machine

/-- One whole period more is one more. -/
theorem wholePeriods_succ {rate : Rat} (hr : 0 < rate) {t : Time} (ht : 1 / rate ≤ t) :
    wholePeriods rate t = wholePeriods rate (t - 1 / rate) + 1 := by
  have ht0 : 0 ≤ t - 1 / rate := sub_nonneg.2 ht
  obtain ⟨hle, hlt⟩ := wholePeriods_bounds hr ht0
  have hmul : (t - 1 / rate) * rate = t * rate - 1 := by
    rw [sub_mul, div_mul_cancel₀ _ hr.ne']
  refine wholePeriods_unique hr (by linarith [one_div_pos.2 hr]) ?_ ?_ <;> push_cast <;> linarith

/-- Less than a period is no whole period. -/
theorem wholePeriods_eq_zero {rate : Rat} (hr : 0 < rate) {t : Time} (h0 : 0 ≤ t) (ht : t < 1 / rate) :
    wholePeriods rate t = 0 := by
  have hmul : t * rate < 1 := (lt_div_iff₀ hr).1 ht
  exact wholePeriods_unique hr h0 (by simpa using mul_nonneg h0 hr.le) (by simpa using hmul)

/-- The decrement of the loop is the subtraction of natural numbers, which stops at 0. -/
theorem decrement_toNat (b : Byte) :
    (if 0 < b.toNat then b - 1 else b).toNat = b.toNat - 1 := by
  split
  · have hb := b.isLt
    rw [BitVec.toNat_sub]
    simp
    omega
  · omega

/-- The loop is the closed form as soon as it may turn once for each whole period (R275). -/
theorem countdownLoop_eq {rate : Rat} (hr : 0 < rate) {turns : Nat} {t : Timer} (h0 : 0 ≤ t.acc)
    (hturns : wholePeriods rate t.acc ≤ turns) :
    Timer.countdownLoop rate turns t =
      { acc := t.acc - (wholePeriods rate t.acc : Rat) / rate
        value := BitVec.ofNat 8 (t.value.toNat - wholePeriods rate t.acc) } := by
  induction turns generalizing t with
  | zero =>
    have hz : wholePeriods rate t.acc = 0 := Nat.le_zero.1 hturns
    simp [Timer.countdownLoop, hz]
  | succ turns ih =>
    rw [Timer.countdownLoop]
    split
    · next hle =>
      have hsucc := wholePeriods_succ hr hle
      rw [ih (t := { acc := t.acc - 1 / rate, value := _ }) (sub_nonneg.2 hle) (by simp only; omega)]
      simp only [hsucc, decrement_toNat, Timer.mk.injEq]
      constructor
      · push_cast
        rw [add_div]
        ring
      · rw [Nat.sub_sub, Nat.add_comm 1]
    · next hlt =>
      have hz := wholePeriods_eq_zero hr h0 (not_le.1 hlt)
      simp [hz]

/-- Settles O43, by induction on the turns. -/
theorem countdownIsTheLoop : Obligations.CountdownIsTheLoop :=
  fun _ _ _ _ hr h0 hturns => countdownLoop_eq hr h0 hturns

/-- The whole periods of a time and of what they leave with more time added are those of the sum. -/
theorem wholePeriods_add {rate : Rat} (hr : 0 < rate) {t e : Time} (ht : 0 ≤ t) (he : 0 ≤ e) :
    wholePeriods rate (t + e) =
      wholePeriods rate t + wholePeriods rate (t - (wholePeriods rate t : Rat) / rate + e) := by
  obtain ⟨hrest, -⟩ := drop_wholePeriods hr ht
  obtain ⟨hle, hlt⟩ := wholePeriods_bounds hr (add_nonneg hrest he)
  have hmul : (t - (wholePeriods rate t : Rat) / rate + e) * rate =
      (t + e) * rate - wholePeriods rate t := by
    rw [add_mul, sub_mul, div_mul_cancel₀ _ hr.ne']
    ring
  refine wholePeriods_unique hr (add_nonneg ht he) ?_ ?_ <;> push_cast <;> linarith

/-- Settles O44: the periods of the two calls add up to those of the one. -/
theorem countdownsAdd : Obligations.CountdownsAdd := by
  intro rate t d e hr hacc hd he
  have hsum := wholePeriods_add hr (add_nonneg hacc hd) he
  simp only [Timer.countdown, Timer.mk.injEq, ← add_assoc, hsum]
  constructor
  · push_cast
    rw [add_div]
    ring
  · have hv := t.value.isLt
    rw [BitVec.toNat_ofNat, Nat.mod_eq_of_lt (by omega), Nat.sub_sub]

/-! ### The update (R130, R131) -/

/-- Settles O45: the slots of the update are the one natural number between the bounds given. -/
theorem updateRunsTheCadence : Obligations.UpdateRunsTheCadence := by
  intro delta s n hd hrun hrate hacc hle hlt
  have hslots : s.slots delta = n := wholePeriods_unique hrate (add_nonneg hacc hd) hle hlt
  rcases update_cases delta s with ⟨hneg, -⟩ | ⟨-, hhalt, -⟩ | ⟨-, -, u, hbatch, he⟩
  · exact absurd hneg (not_lt.2 hd)
  · exact absurd hrun hhalt
  · obtain ⟨hcfg, hinstr, -⟩ := runBatch_fixed hbatch
    rw [hslots] at hbatch he
    refine ⟨u, hbatch, ?_, ?_, ?_⟩
    · rw [he, State.closeBatch, hcfg, hinstr]
      rfl
    · rw [sub_nonneg, div_le_iff₀ hrate]
      exact hle
    · rw [sub_lt_iff_lt_add, ← add_div, lt_div_iff₀ hrate, add_comm (1 : Rat)]
      exact hlt

/-- An update keeps the configuration. -/
theorem cfg_of_update {delta : Time} {s t : State} (h : update delta s = .next t) : t.cfg = s.cfg := by
  rcases update_cases delta s with ⟨-, he⟩ | ⟨-, -, he⟩ | ⟨-, -, u, hbatch, he⟩
  · cases he.symm.trans h
  · obtain rfl := Host.Outcome.next.inj (he.symm.trans h)
    rfl
  · obtain rfl := Host.Outcome.next.inj (he.symm.trans h)
    obtain ⟨hcfg, -, -⟩ := runBatch_fixed hbatch
    exact hcfg

/-- The instruction accumulator after the update of a running machine. -/
theorem instrAcc_of_update {delta : Time} {s t : State} (hrun : s.runState = .running)
    (h : update delta s = .next t) :
    t.instrTimer.acc = s.instrTimer.acc + delta - (s.slots delta : Rat) / s.cfg.instrRate := by
  rcases update_cases delta s with ⟨-, he⟩ | ⟨-, hhalt, -⟩ | ⟨-, -, u, hbatch, he⟩
  · cases he.symm.trans h
  · exact absurd hrun hhalt
  · obtain rfl := Host.Outcome.next.inj (he.symm.trans h)
    obtain ⟨hcfg, hinstr, -⟩ := runBatch_fixed hbatch
    simp only [State.closeBatch, Timer.dropPeriods, hcfg, hinstr]
    rfl

/-- Updates of a halted machine leave it halted as it was. -/
theorem updates_halted {ds : List Time} {s t : State} (hs : s.runState ≠ .running)
    (h : updates ds s = .next t) : t.runState = s.runState := by
  induction ds generalizing s with
  | nil => cases h; rfl
  | cons d ds ih =>
    rw [updates] at h
    rcases update_cases d s with ⟨-, he⟩ | ⟨-, -, he⟩ | ⟨-, hrun, -⟩
    · rw [he] at h
      cases h
    · rw [he] at h
      exact ih (s := (s.countTimers d).markStarted) hs h
    · exact absurd hrun hs

/-- The time of the updates is in the slots run or in the accumulator, which stays settled (R131). -/
theorem updates_slots {ds : List Time} {s t : State} (hds : ∀ d ∈ ds, 0 ≤ d)
    (hrate : 0 < s.cfg.instrRate) (hs : s.instrTimer.Settled s.cfg.instrRate)
    (h : updates ds s = .next t) (ht : t.runState = .running) :
    t.instrTimer.acc = s.instrTimer.acc + ds.sum - (totalSlots ds s : Rat) / s.cfg.instrRate ∧
      t.instrTimer.Settled s.cfg.instrRate := by
  induction ds generalizing s with
  | nil =>
    cases h
    exact ⟨by simp [totalSlots], hs⟩
  | cons d ds ih =>
    have hd : 0 ≤ d := hds d List.mem_cons_self
    have hrun : s.runState = .running := by
      by_contra hhalt
      exact hhalt ((updates_halted hhalt h).symm.trans ht)
    rcases update_cases d s with ⟨hneg, -⟩ | ⟨-, hhalt, -⟩ | ⟨-, -, u, -, he⟩
    · exact absurd hneg (not_lt.2 hd)
    · exact absurd hrun hhalt
    · have hcfg := cfg_of_update he
      have hacc := instrAcc_of_update hrun he
      have hsettled : (u.closeBatch (s.slots d)).instrTimer.Settled s.cfg.instrRate :=
        (dropPeriods_settled (t := s.instrTimer.accumulate d) hrate
          (hs.acc_add_nonneg hd)).of_acc_eq hacc
      rw [updates, he] at h
      obtain ⟨hrest, hfinal⟩ := ih (fun e hmem => hds e (List.mem_cons_of_mem d hmem))
        (hcfg.symm ▸ hrate) (hcfg.symm ▸ hsettled) h
      refine ⟨?_, hcfg ▸ hfinal⟩
      rw [hrest, hacc, hcfg, totalSlots, he, List.sum_cons]
      push_cast
      rw [add_div]
      ring

/-- Settles O46: the accumulator began at 0, and what it holds at the end is less than a period. -/
theorem totalSlotsAreTheFloor : Obligations.TotalSlotsAreTheFloor := by
  intro ds s t hds hrate hzero h ht
  have hs : s.instrTimer.Settled s.cfg.instrRate := by simp [Timer.Settled, hzero]
  obtain ⟨hacc, hnonneg, hlt⟩ := updates_slots hds hrate hs h ht
  rw [hzero, zero_add] at hacc
  rw [hacc, sub_nonneg, div_le_iff₀ hrate] at hnonneg
  rw [hacc, sub_mul, div_mul_cancel₀ _ hrate.ne'] at hlt
  exact ⟨hnonneg, by linarith, hacc⟩

/-! ### The host's interface (R65, R231, R285 to R301) -/

/-- Settles O47: the bytes written read back at their offsets, and no other address is written. -/
theorem loadCopiesRom : Obligations.LoadCopiesRom := by
  intro rom s hst hwf hstart
  have hload : hostOp (.load rom) s = hostLoad rom s := rfl
  rcases hostLoad_cases rom s with ⟨hst', -⟩ | ⟨-, hlen, he⟩ | ⟨-, hlen, he⟩
  · simp [hst] at hst'
  · exact ⟨fun hfit => absurd hlen (not_lt.2 hfit), fun _ => he⟩
  · refine ⟨fun _ => ?_, fun hlong => absurd hlong (not_lt.2 hlen)⟩
    have hdev : SameDevices s (s.setMem (s.mem.writeBytes s.cfg.start rom)) :=
      ⟨⟨rfl, rfl, rfl, rfl⟩, ⟨rfl, rfl⟩, ⟨rfl, rfl⟩, rfl⟩
    refine ⟨_, hload.trans he, fun k hk => ?_, fun a ha => ?_, fun _ _ => rfl, rfl, rfl, ⟨rfl, rfl⟩,
      hdev, rfl⟩
    · have hbound : s.cfg.start + k < s.cfg.memSize := by omega
      exact memRead_eq_ok_iff.2 ⟨hbound, Memory.read_writeBytes_offset hwf _ hk⟩
    · have hread : (s.mem.writeBytes s.cfg.start rom).read a = s.mem.read a :=
        Memory.read_writeBytes_other hwf fun k hk hak => ha (by omega)
      simp [memRead, hread]

/-- Settles O48: each duty breached has its refusal. -/
theorem hostDutiesAreRefused : Obligations.HostDutiesAreRefused := by
  refine ⟨fun c hc => if_neg hc, fun c hc => if_pos hc, fun delta s hd => ?_, fun delta rom s t h => ?_⟩
  · have hrefused : update delta s = .refused .negativeDelta := if_pos hd
    simp only [hostOp, hostUpdate, hrefused]
  · exact if_pos (started_of_update h)

theorem press_eq {id : Nat} (h : id < 16) (s : State) :
    press id s = s.setKeys (s.keys ||| BitVec.twoPow 16 id) := if_pos h

theorem release_eq {id : Nat} (h : id < 16) (s : State) :
    release id s = s.setKeys (s.keys &&& ~~~ BitVec.twoPow 16 id) := if_pos h

theorem press_bad {id : Nat} (h : 16 ≤ id) (s : State) : press id s = badKey id s := if_neg (by omega)

theorem release_bad {id : Nat} (h : 16 ≤ id) (s : State) : release id s = badKey id s :=
  if_neg (by omega)

theorem badKey_running {id : Nat} {s : State} (h : s.runState = .running) :
    badKey id s = s.setRunState (.haltedOnFault (.invalidKey id)) := if_pos (isRunning_iff.2 h)

theorem badKey_halted {id : Nat} {s : State} (h : s.runState ≠ .running) : badKey id s = s :=
  if_neg (mt isRunning_iff.1 h)

/-- Settles O49: the bit of the key is set or cleared, or the id names no key. -/
theorem keyEventsSetAndClear : Obligations.KeyEventsSetAndClear := by
  intro id s
  simp only [hostOp, Host.Outcome.next.injEq, Prod.mk.injEq, true_and]
  refine ⟨fun hid => ?_, fun hid hrun => ?_, fun hid hhalt => ?_⟩
  · rw [press_eq hid, release_eq hid]
    refine ⟨⟨_, rfl, rfl, fun k hk => ?_⟩, ⟨_, rfl, rfl, fun k hk => ?_⟩⟩
    · simp [hk, eq_comm (a := k), Bool.or_comm]
    · simp [hk, eq_comm (a := k), Bool.and_comm]
  · rw [press_bad hid, release_bad hid, badKey_running hrun]
    exact ⟨rfl, rfl⟩
  · rw [press_bad hid, release_bad hid, badKey_halted hhalt]
    exact ⟨rfl, rfl⟩

/-- Settles O50: a halted machine steps to itself, counts only timers in an update, and takes no further
fault from a key event. -/
theorem haltIsFinal : Obligations.HaltIsFinal := by
  intro s hs
  constructor
  · intro t h
    obtain rfl := Host.Outcome.next.inj ((step_halted hs).symm.trans h)
    rfl
  · intro op reply t h
    have hbad (id : Nat) : (badKey id s).runState = s.runState := by rw [badKey_halted hs]
    cases op
    case load rom =>
      rcases hostLoad_cases rom s with ⟨-, he⟩ | ⟨-, -, he⟩ | ⟨-, -, he⟩
      all_goals cases he.symm.trans h
      all_goals rfl
    case update delta => exact updates_halted (ds := [delta]) hs (by rw [updates, hostUpdate_next h]; rfl)
    case press id =>
      cases h
      rcases lt_or_ge id 16 with hid | hid
      · rw [press_eq hid]; rfl
      · rw [press_bad hid]; exact hbad id
    case release id =>
      cases h
      rcases lt_or_ge id 16 with hid | hid
      · rw [release_eq hid]; rfl
      · rw [release_bad hid]; exact hbad id
    case isRunning | getPixel | getChanged | resetChanged | getSound | dimensions => cases h; rfl

/-- A pixel of the display is the bit of the packed grid (R210, R212). -/
theorem getPixel_of_lt {s : State} {x y : Nat} (hx : x < s.cfg.width) (hy : y < s.cfg.height) :
    s.getPixel x y = gridPixel s.cfg.width s.bitgrid x y := if_pos ⟨hx, hy⟩

/-- Outside the display every pixel is off (R212). -/
theorem getPixel_outside {s : State} {x y : Nat} (h : s.cfg.width ≤ x ∨ s.cfg.height ≤ y) :
    s.getPixel x y = false := if_neg (by omega)

/-- Settles O51: each accessor answers its field. -/
theorem accessorsReadTheState : Obligations.AccessorsReadTheState := by
  intro x y s
  refine ⟨?running, fun hx hy => ?inside, fun hout => ?outside, rfl, rfl, rfl, rfl⟩
  case running =>
    have hrun : s.isRunning = decide (s.runState = .running) := by
      rw [Bool.eq_iff_iff, isRunning_iff, decide_eq_true_iff]
    rw [hostOp, hrun]
  case inside =>
    rw [hostOp, getPixel_of_lt hx hy]
    rfl
  case outside => rw [hostOp, getPixel_outside hout]

/-! ### Reset (R36, R68) -/

/-- A dark grid shows no pixel. -/
theorem gridPixel_dark {width : Nat} {g : List Byte} (h : ∀ b ∈ g, b = 0) (x y : Nat) :
    gridPixel width g x y = false := by
  have hzero : g.getD (pixelByte width x y) 0 = 0 := by
    rcases lt_or_ge (pixelByte width x y) g.length with hlt | hge
    · rw [List.getD_eq_getElem _ _ hlt]
      exact h _ (List.getElem_mem hlt)
    · exact List.getD_eq_default _ _ hge
  rw [gridPixel, hzero, BitVec.ofNat_eq_ofNat, BitVec.getLsbD_zero]

theorem getPixel_dark {s : State} (h : ∀ b ∈ s.bitgrid, b = 0) (x y : Nat) : s.getPixel x y = false := by
  unfold State.getPixel
  split
  · exact gridPixel_dark h x y
  · rfl

/-- An address no cell lists reads as the font byte of its digit and row (R68). -/
theorem unlistedByte_glyph : ∀ digit : Fin 16, ∀ row : Fin 5,
    unlistedByte (digit.val * 5 + row.val) = (standardGlyphs.getD digit.val []).getD row.val 0 := by
  decide

/-- Settles O52: construction leaves `State.initial`, whose Memory lists no cell and whose grid is dark.
-/
theorem resetValues : Obligations.ResetValues := by
  intro c hc
  obtain ⟨-, hmax, hfont, hstart, -⟩ := id hc
  have hpc : (State.initial c).pc.toNat = c.start := by
    simp only [State.initial, BitVec.toNat_ofNat]
    omega
  have hreg (r : Reg) : (State.initial c).reg r = 0 := by simp [State.reg, State.initial]
  have hstack (k : Fin 16) : (State.initial c).stack[k] = 0 := by simp [State.initial]
  have htimers : ∀ t ∈ [(State.initial c).delayTimer, (State.initial c).soundTimer,
      (State.initial c).vsyncTimer, (State.initial c).instrTimer], t.acc = 0 ∧ t.value = 0 := by
    simp [State.initial, Timer.zero]
  have hdark := getPixel_dark (s := State.initial c) fun _ => List.eq_of_mem_replicate
  have hbyte {a : Nat} (ha : a < c.memSize) : memRead a (State.initial c) = .ok (unlistedByte a) :=
    memRead_ok ha
  refine ⟨State.initial c, if_pos hc, rfl, hreg, rfl, hpc, rfl, hstack, rfl, htimers, hdark, rfl, rfl,
    rfl, fun digit row hdigit hrow => ?_, fun a ha hbound => ?_⟩
  · have hin : digit * 5 + row < c.memSize := by
      simp only [Config.fontBase, Config.fontSize] at hfont
      omega
    rw [hbyte hin]
    exact congrArg Except.ok (unlistedByte_glyph ⟨digit, hdigit⟩ ⟨row, hrow⟩)
  · rw [hbyte hbound, unlistedByte_beyond_font ha]

end Sys2Proof.Machine

/-! ### Jumps, and chains of calls and returns (R26, R151, R153) -/

namespace Sys2Proof.Machine

/-- Settles O13: the two branches of the meaning. -/
theorem jumpHaltsOnItself : Obligations.JumpHaltsOnItself :=
  fun _ _ => ⟨fun h => if_neg h, fun h => if_pos h⟩

theorem zext_toNat (b : Byte) : (zext b).toNat = b.toNat := by
  have hb := b.isLt
  rw [zext, BitVec.toNat_setWidth]
  omega

/-- Settles O15: the sum of a 12-bit number and a byte fits 16 bits. -/
theorem jumpAddsVZero : Obligations.JumpAddsVZero := by
  intro nnn s hfit
  have hb := (s.reg 0).isLt
  refine ⟨nnn + zext (s.reg 0), ?_, rfl⟩
  rw [BitVec.toNat_add, zext_toNat]
  omega

/-- Returns look at the stack in use alone: the entries below the stack pointer. -/
theorem returnAll_congr {n : Nat} {s t : State} (hn : n ≤ s.sp.val) (hsp : t.sp = s.sp)
    (hentry : ∀ k : Fin 16, k.val < s.sp.val → t.stack[k] = s.stack[k]) :
    returnAll n t = returnAll n s := by
  induction n generalizing s t with
  | zero => rfl
  | succ n ih =>
    obtain ⟨k, hk⟩ : ∃ k : Fin 16, s.sp.val = k.val + 1 := ⟨⟨s.sp.val - 1, by omega⟩, by simp; omega⟩
    have hpc : t.stack[k] = s.stack[k] := hentry k (by omega)
    have hrest := ih (s := (s.setStack s.stack k.castSucc).setPc s.stack[k])
      (t := (t.setStack t.stack k.castSucc).setPc t.stack[k]) (by simp; omega) rfl
      fun j hj => hentry j (by simp at hj; omega)
    rw [returnAll, returnAll, exec_ret_of_sp_eq_succ hk, exec_ret_of_sp_eq_succ (hsp ▸ hk)]
    simp only [State.setPc_pc, hpc] at hrest ⊢
    rw [hrest]

/-- One call more, made last. -/
theorem callAll_append {ws : List Word} {s t : State} (h : callAll ws s = .next t) (w : Word) :
    callAll (ws ++ [w]) s = exec (.call w) t := by
  induction ws generalizing s with
  | nil =>
    cases h
    obtain ⟨u, hu⟩ := exec_next (.call w) t
    simp only [List.nil_append, callAll, hu]
  | cons v ws ih =>
    obtain ⟨u, hu⟩ := exec_next (.call v) s
    rw [callAll, hu] at h
    rw [List.cons_append, callAll, hu]
    exact ih h

/-- Calls that fit on the stack leave `pc` at the last target, and as many returns undo them, the last
first. -/
theorem callAll_returnAll (ws : List Word) (s : State) (hfit : s.sp.val + ws.length ≤ 16) :
    ∃ t, callAll ws s = .next t ∧ t.sp.val = s.sp.val + ws.length ∧
      t.pc = (s.pc :: ws).getLast (List.cons_ne_nil _ _) ∧
      returnAll ws.length t = ((s.pc :: ws).dropLast).reverse := by
  induction ws using List.reverseRecOn with
  | nil => exact ⟨s, rfl, rfl, rfl, rfl⟩
  | append_singleton ws w ih =>
    rw [List.length_append, List.length_singleton] at hfit
    obtain ⟨t, hcalls, hsp, hpc, hreturns⟩ := ih (by omega)
    obtain ⟨k, hk⟩ : ∃ k : Fin 16, t.sp.val = k.val := ⟨⟨t.sp.val, by omega⟩, rfl⟩
    have hcall := exec_call_of_sp_eq hk w
    refine ⟨_, (callAll_append hcalls w).trans hcall, ?_, by simp, ?_⟩
    · simp only [State.setPc_sp, State.setStack_sp, Fin.val_succ, List.length_append,
        List.length_singleton]
      omega
    · -- the first return pops the entry pushed last, and leaves the stack in use as it was
      have hpushed : (t.stack.set k t.pc)[k] = t.pc := Vector.getElem_set_self k.isLt
      have hrest := returnAll_congr (n := ws.length) (s := t)
        (t := (((t.setStack (t.stack.set k t.pc) k.succ).setPc w).setStack
          (t.stack.set k t.pc) k.castSucc).setPc (t.stack.set k t.pc)[k])
        (by omega) (Fin.ext hk.symm)
        fun j hj => Vector.getElem_set_ne k.isLt j.isLt (by omega)
      rw [List.length_append, List.length_singleton, returnAll,
        exec_ret_of_sp_eq_succ (k := k) (by simp)]
      simp only [State.setPc_pc, State.setPc_stack, State.setStack_stack, hpushed] at hrest ⊢
      rw [hrest, hreturns, hpc, ← List.cons_append, List.dropLast_concat,
        ← List.reverse_concat, List.dropLast_append_getLast]

/-- Settles O12: the calls by `callAll_returnAll`, the faults at either end of the stack by the call and
the return themselves. -/
theorem stackIsLastInFirstOut : Obligations.StackIsLastInFirstOut := by
  intro ws s hfit
  obtain ⟨t, hcalls, hsp, -, hreturns⟩ := callAll_returnAll ws s hfit
  exact ⟨t, hcalls, hsp, hreturns,
    fun hfull w => ⟨_, execCall_full hfull w, rfl, rfl, rfl⟩,
    fun hempty => ⟨_, execRet_empty hempty, rfl, rfl, rfl⟩⟩

end Sys2Proof.Machine

/-! ### Arithmetic, shifts, the random byte and the delay timer (R171, R176 to R182, R250 to R252) -/

namespace Sys2Proof.Machine

/-- Settles O18. -/
theorem addImmediateWraps : Obligations.AddImmediateWraps := by
  intro x kk s
  refine ⟨_, rfl, ?_, onlyRegsChange_setReg s x _⟩
  rw [State.reg_setReg_same, BitVec.toNat_add]

/-- A flag as a number. -/
theorem flagByte_toNat (f : Bool) : (flagByte f).toNat = if f then 1 else 0 := by cases f <;> rfl

/-- An instruction that writes a result with a property and a flag of a known value: the part that the
arithmetic and shift forms share. -/
theorem exec_result_flag {i : Instr} {s : State} {x : Reg} {b : Byte} {f : Bool} {P : Byte → Prop}
    {n : Nat} (hexec : exec i s = .next (s.setRegFlag x b f)) (hb : P b) (hf : (flagByte f).toNat = n) :
    ∃ t, exec i s = .next t ∧ (x ≠ VF → P (t.reg x)) ∧ (t.reg VF).toNat = n ∧
      OnlyRegsChange [x, VF] s t := by
  refine ⟨_, hexec, fun hx => ?_, ?_, onlyRegsChange_setRegFlag s x b f⟩
  · rwa [s.reg_setRegFlag_of_ne hx]
  · rwa [s.reg_VF_setRegFlag]

/-- Settles O20. -/
theorem addWritesCarry : Obligations.AddWritesCarry := by
  intro x y s
  refine exec_result_flag (P := fun b => b.toNat = ((s.reg x).toNat + (s.reg y).toNat) % 256) rfl
    (BitVec.toNat_add _ _) ?_
  simp only [flagByte_toNat, carryOut, decide_eq_true_eq]

theorem toNat_sub_eq_emod (a b : Byte) : ((a - b).toNat : Int) = (a.toNat - b.toNat : Int) % 256 := by
  have ha := a.isLt
  have hb := b.isLt
  rw [BitVec.toNat_sub]
  omega

theorem flagByte_notBorrow (a b : Byte) :
    (flagByte (notBorrow a b)).toNat = if b.toNat ≤ a.toNat then 1 else 0 := by
  simp only [flagByte_toNat, notBorrow, decide_eq_true_eq]

/-- Settles O21: the two forms are one subtraction with its operands in either order. -/
theorem subtractsWriteNotBorrow : Obligations.SubtractsWriteNotBorrow := by
  intro x y s
  constructor
  · exact exec_result_flag
      (P := fun b => (b.toNat : Int) = ((s.reg x).toNat - (s.reg y).toNat : Int) % 256) rfl
      (toNat_sub_eq_emod _ _) (flagByte_notBorrow _ _)
  · exact exec_result_flag
      (P := fun b => (b.toNat : Int) = ((s.reg y).toNat - (s.reg x).toNat : Int) % 256) rfl
      (toNat_sub_eq_emod _ _) (flagByte_notBorrow _ _)

/-- Bit 0 is the rest modulo 2. -/
theorem flagByte_shiftedOutRight (b : Byte) : (flagByte (shiftedOutRight b)).toNat = b.toNat % 2 := by
  rw [flagByte_toNat, shiftedOutRight, BitVec.getLsbD, Nat.testBit_zero]
  simp only [decide_eq_true_eq]
  split <;> omega

/-- Bit 7 of a byte is what remains above 128. -/
theorem flagByte_shiftedOutLeft (b : Byte) : (flagByte (shiftedOutLeft b)).toNat = b.toNat / 128 := by
  have hb := b.isLt
  rw [flagByte_toNat, shiftedOutLeft, BitVec.getLsbD, Nat.testBit_eq_decide_div_mod_eq]
  simp only [decide_eq_true_eq]
  split <;> omega

/-- Settles O22. -/
theorem shiftsTakeRegisterY : Obligations.ShiftsTakeRegisterY := by
  intro x y s
  constructor
  · refine exec_result_flag (P := fun b => b.toNat = (s.reg y).toNat / 2) rfl ?_
      (flagByte_shiftedOutRight _)
    rw [BitVec.toNat_ushiftRight, Nat.shiftRight_one]
  · refine exec_result_flag (P := fun b => b.toNat = (s.reg y).toNat * 2 % 256) rfl ?_
      (flagByte_shiftedOutLeft _)
    rw [BitVec.toNat_shiftLeft, Nat.shiftLeft_eq]

/-- CXKK with a given byte writes that byte under the mask to one register (R182). -/
theorem rndWith_spec (r : Byte) (x : Reg) (kk : Byte) (s : State) :
    (rndWith r x kk s).reg x = r &&& kk ∧ OnlyRegsChange [x] s (rndWith r x kk s) :=
  ⟨s.reg_setReg_same x _, onlyRegsChange_setReg s x _⟩

/-- A byte under a mask has no bit outside it. -/
theorem and_and_not_self (r kk : Byte) : r &&& kk &&& ~~~ kk = 0 := by
  rw [BitVec.and_assoc, BitVec.and_not_self]
  exact BitVec.and_zero

/-- Settles O23: the random byte drawn is one of the bytes of `rndWith_spec`. -/
theorem randomByteUnderMask : Obligations.RandomByteUnderMask := by
  intro x kk s
  refine ⟨fun r => rndWith_spec r x kk s, ?_⟩
  obtain ⟨hreg, hframe⟩ := rndWith_spec (Config.randByte s.rands) x kk s.drawRand
  exact ⟨_, rfl, rfl, hreg, by rw [hreg, and_and_not_self], rfl, hframe⟩

/-- Settles O41: one `setReg`. -/
theorem delayTimerRead : Obligations.DelayTimerRead :=
  fun x s => ⟨_, rfl, s.reg_setReg_same x s.dt, onlyRegsChange_setReg s x s.dt⟩

/-- Settles O42: each is one write of a timer's value. -/
theorem timerLoads : Obligations.TimerLoads := fun _ _ => ⟨rfl, rfl⟩

end Sys2Proof.Machine

/-! ### The index register and the block moves (R191, R194, R196, R197) -/

namespace Sys2Proof.Machine

/-- Settles O25: both are one `setIndex`. -/
theorem indexArithmetic : Obligations.IndexArithmetic := by
  intro x s
  have hb := (s.reg x).isLt
  refine ⟨⟨_, rfl, ?_, onlyIndexChanges_setIndex s _⟩, ⟨_, rfl, ?_, onlyIndexChanges_setIndex s _⟩⟩
  · rw [State.setIndex_index, BitVec.toNat_add, zext_toNat]
  · rw [State.setIndex_index, glyphAddr, BitVec.toNat_ofNat]
    omega

/-- The registers before `n` of a block move up to Vx, `n` at most x + 1. -/
theorem mem_take_regsUpTo {x q : Reg} {n : Nat} (hn : n ≤ x.val + 1) :
    q ∈ (regsUpTo x).take n ↔ q.val < n := by
  rw [List.mem_take_iff_getElem]
  simp only [regsUpTo_getElem, regsUpTo_length]
  constructor
  · rintro ⟨k, hk, rfl⟩
    exact (Nat.lt_min.1 hk).1
  · exact fun hq => ⟨q.val, by omega, rfl⟩

theorem length_take_regsUpTo {x : Reg} {n : Nat} (hn : n ≤ x.val + 1) :
    ((regsUpTo x).take n).length = n := by
  rw [List.length_take, regsUpTo_length]
  omega

/-- All registers up to Vx are the first x + 1 of them. -/
theorem take_regsUpTo_self (x : Reg) : (regsUpTo x).take (x.val + 1) = regsUpTo x :=
  List.take_of_length_le (by simp)

/-- `j` is the first position of a block move whose address lies outside Memory: what FX55 and FX65 stop
at. -/
def FirstOutside (s : State) (j : Nat) : Prop :=
  (∀ k, k < j → blockAddr s k < s.cfg.memSize) ∧ s.cfg.memSize ≤ blockAddr s j

/-- There is one first position. -/
theorem FirstOutside.unique {s : State} {j k : Nat} (hj : FirstOutside s j) (hk : FirstOutside s k) :
    j = k := by
  rcases Nat.lt_trichotomy j k with hlt | heq | hgt
  · exact absurd (hk.1 j hlt) (Nat.not_lt.2 hj.2)
  · exact heq
  · exact absurd (hj.1 k hgt) (Nat.not_lt.2 hk.2)

/-- A statement about the registers below `n ≤ 16` is one about the positions below `n`. -/
theorem forall_lt_of_forall_reg {n : Nat} (hn : n ≤ 16) {P : Nat → Prop}
    (h : ∀ k : Reg, k.val < n → P k.val) : ∀ k, k < n → P k :=
  fun k hk => h ⟨k, by omega⟩ hk

theorem exec_storeRegs_completes {x : Reg} {s : State}
    (h : ∀ k, k < x.val + 1 → blockAddr s k < s.cfg.memSize) :
    exec (.storeRegs x) s = .next (storedRegs ((regsUpTo x).take (x.val + 1)) s) := by
  rcases execStoreRegs_cases x s with ⟨-, he⟩ | ⟨k, hk, -, hbad, -⟩
  · rw [take_regsUpTo_self]
    exact he
  · exact absurd (h k hk) (Nat.not_lt.2 hbad)

theorem exec_storeRegs_stops {x : Reg} {s : State} {j : Nat} (hjx : j < x.val + 1)
    (h : FirstOutside s j) :
    exec (.storeRegs x) s = .next ((storedRegs ((regsUpTo x).take j) s).setRunState
      (.haltedOnFault (.outOfBounds (blockAddr s j)))) := by
  rcases execStoreRegs_cases x s with ⟨hall, -⟩ | ⟨k, -, hbefore, hbad, he⟩
  · exact absurd (hall j hjx) (Nat.not_lt.2 h.2)
  · obtain rfl := h.unique ⟨hbefore, hbad⟩
    exact he

theorem exec_loadRegs_completes {x : Reg} {s : State}
    (h : ∀ k, k < x.val + 1 → blockAddr s k < s.cfg.memSize) :
    exec (.loadRegs x) s = .next (loadedRegs ((regsUpTo x).take (x.val + 1)) s) := by
  rcases execLoadRegs_cases x s with ⟨-, he⟩ | ⟨k, hk, -, hbad, -⟩
  · rw [take_regsUpTo_self]
    exact he
  · exact absurd (h k hk) (Nat.not_lt.2 hbad)

theorem exec_loadRegs_stops {x : Reg} {s : State} {j : Nat} (hjx : j < x.val + 1)
    (h : FirstOutside s j) :
    exec (.loadRegs x) s = .next ((loadedRegs ((regsUpTo x).take j) s).setRunState
      (.haltedOnFault (.outOfBounds (blockAddr s j)))) := by
  rcases execLoadRegs_cases x s with ⟨hall, -⟩ | ⟨k, -, hbefore, hbad, he⟩
  · exact absurd (hall j hjx) (Nat.not_lt.2 h.2)
  · obtain rfl := h.unique ⟨hbefore, hbad⟩
    exact he

section

variable {x : Reg} {n : Nat} {s t : State} (hn : n ≤ x.val + 1)
include hn

/-- Each register before `n`, stored, is the byte at its address. -/
theorem memRead_storedRegs (hw : Memory.Wf s.mem) (hcfg : t.cfg = s.cfg)
    (hmem : t.mem = (storedRegs ((regsUpTo x).take n) s).mem) {k : Reg} (hk : k.val < n)
    (hin : blockAddr s k.val < s.cfg.memSize) : memRead (blockAddr s k.val) t = .ok (s.reg k) := by
  have hlen := length_take_regsUpTo hn
  obtain ⟨hread, -⟩ := storedRegs_read ((regsUpTo x).take n) hw (by omega)
  refine memRead_eq_ok_iff.2 ⟨hcfg.symm ▸ hin, ?_⟩
  rw [hmem, hread k.val (by omega), List.getElem_take, regsUpTo_getElem]

/-- Every address that is none of a register before `n` reads as before. -/
theorem sameBytesBut_storedRegs (hw : Memory.Wf s.mem) (hcfg : t.cfg = s.cfg)
    (hmem : t.mem = (storedRegs ((regsUpTo x).take n) s).mem) :
    SameBytesBut (fun a => ∃ k : Reg, k.val < n ∧ a = blockAddr s k.val) s t := by
  intro a ha
  have hlen := length_take_regsUpTo hn
  obtain ⟨-, hother⟩ := storedRegs_read ((regsUpTo x).take n) hw (by omega)
  have hread : t.mem.read a = s.mem.read a := by
    rw [hmem]
    refine hother a fun k hk hak => ha ⟨⟨k, by omega⟩, ?_, hak⟩
    simpa [hlen] using hk
  simp only [memRead, hcfg, hread]

/-- Each register before `n`, loaded, is the byte at its address. -/
theorem memRead_eq_loadedRegs (hreg : ∀ r, t.reg r = (loadedRegs ((regsUpTo x).take n) s).reg r)
    {k : Reg} (hk : k.val < n) (hin : blockAddr s k.val < s.cfg.memSize) :
    memRead (blockAddr s k.val) s = .ok (t.reg k) := by
  have hlen := length_take_regsUpTo hn
  obtain ⟨hloaded, -⟩ := loadedRegs_reg ((regsUpTo x).take n) (s := s)
    ((regsUpTo_nodup x).sublist (List.take_sublist _ _))
  have hget : ((regsUpTo x).take n)[k.val]'(by omega) = k := by
    rw [List.getElem_take, regsUpTo_getElem]
  have hval := hloaded k.val (by omega)
  rw [hget] at hval
  exact memRead_eq_ok_iff.2 ⟨hin, by rw [hreg, hval]⟩

/-- The registers from `n` on are not loaded. -/
theorem reg_eq_of_loadedRegs (hreg : ∀ r, t.reg r = (loadedRegs ((regsUpTo x).take n) s).reg r)
    {k : Reg} (hk : n ≤ k.val) : t.reg k = s.reg k := by
  obtain ⟨-, hother⟩ := loadedRegs_reg ((regsUpTo x).take n) (s := s)
    ((regsUpTo_nodup x).sublist (List.take_sublist _ _))
  rw [hreg, hother k (by rw [mem_take_regsUpTo hn]; omega)]

end

theorem sameDevices_storedRegs (rs : List Reg) (s : State) : SameDevices s (storedRegs rs s) := by
  simp [SameDevices, SameTimers, SameDisplay, SameKeyboard]

theorem sameDevices_loadedRegs (rs : List Reg) (s : State) : SameDevices s (loadedRegs rs s) := by
  simp [SameDevices, SameTimers, SameDisplay, SameKeyboard]

/-- Settles O27. -/
theorem blockStoreCompletes : Obligations.BlockStoreCompletes := by
  intro x s hw hin
  simp only [Fin.le_iff_val_le_val, ← Nat.lt_succ_iff] at hin ⊢
  have hexec := exec_storeRegs_completes (forall_lt_of_forall_reg (by omega) hin)
  refine ⟨_, hexec, fun k hk => memRead_storedRegs le_rfl hw (by simp) rfl hk (hin k hk),
    sameBytesBut_storedRegs le_rfl hw (by simp) rfl, ?_, fun r _ => storedRegs_reg _ s r, by simp,
    by simp [SameStack], sameDevices_storedRegs _ s, by simp⟩
  rw [storedRegs_index, length_take_regsUpTo le_rfl]

/-- Settles O28. -/
theorem blockStoreStopsAtBound : Obligations.BlockStoreStopsAtBound := by
  intro x j s hw hjx hin hout
  simp only [Fin.lt_def] at hin ⊢
  have hfirst : FirstOutside s j.val := ⟨forall_lt_of_forall_reg (by omega) hin, hout⟩
  have hj : j.val < x.val + 1 := Nat.lt_succ_of_le (Fin.le_def.1 hjx)
  refine ⟨_, exec_storeRegs_stops hj hfirst,
    fun k hk => memRead_storedRegs hj.le hw (by simp) rfl hk (hin k hk),
    sameBytesBut_storedRegs hj.le hw (by simp) rfl, ?_, fun r _ => storedRegs_reg _ s r, by simp,
    by simp [SameStack], sameDevices_storedRegs _ s, rfl⟩
  rw [State.setRunState_index, storedRegs_index, length_take_regsUpTo hj.le]

/-- Settles O29. -/
theorem blockLoadCompletes : Obligations.BlockLoadCompletes := by
  intro x s hin
  simp only [Fin.le_iff_val_le_val, ← Nat.lt_succ_iff] at hin ⊢
  have hexec := exec_loadRegs_completes (forall_lt_of_forall_reg (by omega) hin)
  refine ⟨_, hexec, fun k hk => memRead_eq_loadedRegs le_rfl (fun _ => rfl) hk (hin k hk),
    fun r hr => reg_eq_of_loadedRegs le_rfl (fun _ => rfl) ?_, ?_, by simp,
    memRead_congr (by simp) (by simp), by simp [SameStack], sameDevices_loadedRegs _ s, by simp⟩
  · rw [mem_regsUpTo, not_le, Fin.lt_def] at hr
    exact hr
  · rw [loadedRegs_index, length_take_regsUpTo le_rfl]

/-- Settles O30. -/
theorem blockLoadStopsAtBound : Obligations.BlockLoadStopsAtBound := by
  intro x j s hjx hin hout
  simp only [Fin.lt_def] at hin ⊢
  have hfirst : FirstOutside s j.val := ⟨forall_lt_of_forall_reg (by omega) hin, hout⟩
  have hj : j.val < x.val + 1 := Nat.lt_succ_of_le (Fin.le_def.1 hjx)
  refine ⟨_, exec_loadRegs_stops hj hfirst,
    fun k hk => memRead_eq_loadedRegs hj.le (fun _ => rfl) hk (hin k hk),
    fun k hk => reg_eq_of_loadedRegs hj.le (fun _ => rfl) hk, ?_, by simp,
    memRead_congr (by simp) (by simp), by simp [SameStack], sameDevices_loadedRegs _ s, rfl⟩
  rw [State.setRunState_index, loadedRegs_index, length_take_regsUpTo hj.le]

end Sys2Proof.Machine

/-! ### The display (R210 to R220) -/

namespace Sys2Proof.Machine

theorem getPixel_congr {s t : State} (hc : t.cfg = s.cfg) (hg : t.bitgrid = s.bitgrid) (x y : Nat) :
    t.getPixel x y = s.getPixel x y := by
  simp only [State.getPixel, hc, hg]

theorem clearGrid_dark (g : List Byte) : ∀ b ∈ clearGrid g, b = 0 := by
  simp [clearGrid]

/-- Settles O31: the grid left is all zeros. -/
theorem clearScreen : Obligations.ClearScreen := by
  intro s
  have hmem : SameBytes s ((s.setGrid (clearGrid s.bitgrid)).setChanged true) := memRead_congr rfl rfl
  exact ⟨_, rfl, getPixel_dark (clearGrid_dark s.bitgrid), List.length_map _, rfl, fun _ _ => rfl, rfl,
    rfl, ⟨rfl, rfl⟩, hmem, ⟨rfl, rfl, rfl, rfl⟩, ⟨rfl, rfl⟩, rfl, rfl⟩

/-- Settles O32: the toggle is `plot_pixel`, the answer `plot_hit`. -/
theorem plotTogglesOnePixel : Obligations.PlotTogglesOnePixel := by
  intro s x y hlegal
  obtain ⟨hw, hg⟩ := hlegal
  refine ⟨fun cx cy hx hy => ?_, ?_, fun hout => if_pos hout, rfl, rfl⟩
  · rw [getPixel_of_lt hx hy]
    exact (getPixel_of_lt (s := s.setGrid (plot s.cfg x y s.bitgrid).1) hx hy).trans
      (plot_pixel hw hg x y hx hy)
  · rw [plot_hit]
    by_cases hin : x < s.cfg.width ∧ y < s.cfg.height
    · rw [getPixel_of_lt hin.1 hin.2, decide_eq_true hin, Bool.true_and]
    · rw [getPixel_outside (by omega), decide_eq_false hin, Bool.false_and]

/-! #### A draw that waits (R219) -/

theorem exec_drw_gated {s : State} (h : s.vs ≠ 0) (x y : Reg) (n : Nat) :
    exec (.drw x y n) s = .next (s.setPc (s.pc - 2)) := if_pos h

/-- A step whose instruction only rewinds changes nothing (R124, R134). -/
theorem step_self_of_rewind {s : State} {w : Word} {i : Instr} (hr : s.runState = .running)
    (hf : fetch s = .ok w) (hd : decode w = .ok i)
    (hexec : exec i (s.setPc (s.pc + 2)) = .next (s.setPc (s.pc + 2)).rewind) : step s = .next s := by
  have hback : (s.setPc (s.pc + 2)).rewind = s := by simp
  rw [step_decoded hr hf hd, hexec, hback]

/-- Settles O33. -/
theorem gatedDrawWaits : Obligations.GatedDrawWaits := by
  refine ⟨fun x y n s hv => exec_drw_gated hv x y n, fun x y n k w s hr hf hd hv => ?_⟩
  have hstep : step s = .next s := 
    step_self_of_rewind hr hf hd (exec_drw_gated (s := s.setPc (s.pc + 2)) hv x y n)
  exact ⟨hstep, runBatch_of_step_self hstep k⟩

/-- With the vsync timer not ready an instruction turns no pixel on: 00E0 turns pixels off, and a draw
waits. -/
theorem Effect.getPixel_mono {s t : State} {i : Instr} (h : Effect s i t) (hv : s.vs ≠ 0) {x y : Nat}
    (ht : t.getPixel x y = true) : s.getPixel x y = true := by
  rw [← ht]
  symm
  cases h
  case clear => rw [getPixel_dark (clearGrid_dark s.bitgrid)] at ht; cases ht
  case drawn hv' _ => exact absurd hv' hv
  case drawStopped hv' _ _ => exact absurd hv' hv
  all_goals exact getPixel_congr (by simp) (by simp) x y

/-- Settles O37: each step of the batch keeps the vsync timer, which so stays not ready, and turns no
pixel on. -/
theorem noSecondDrawInBatch : Obligations.NoSecondDrawInBatch := by
  intro k s t hv h
  refine runBatch_keeps (P := fun u => u.vsyncTimer = s.vsyncTimer ∧
    ∀ cx cy, u.getPixel cx cy = true → s.getPixel cx cy = true) ?_ ⟨rfl, fun _ _ hon => hon⟩ h
  rintro u u' ⟨htimer, hpixels⟩ hstep
  rcases step_cases u with ⟨-, he⟩ | ⟨-, -, he⟩ | ⟨_, _, -, -, -, he⟩ | ⟨_, i, -, -, -, he⟩
  · obtain rfl := Host.Outcome.next.inj (he.symm.trans hstep)
    exact ⟨htimer, hpixels⟩
  · obtain rfl := Host.Outcome.next.inj (he.symm.trans hstep)
    exact ⟨htimer, hpixels⟩
  · obtain rfl := Host.Outcome.next.inj (he.symm.trans hstep)
    exact ⟨htimer, hpixels⟩
  · have heff : Effect u.advance i u' := exec_effect (he.symm.trans hstep)
    have hv' : u.advance.vs ≠ 0 := by
      change u.vsyncTimer.value ≠ 0
      rwa [htimer]
    exact ⟨(heff.vsyncTimer_eq (.inr hv')).trans htimer,
      fun cx cy hon => hpixels cx cy (heff.getPixel_mono hv' hon)⟩

/-! #### A draw that executes (R218) -/

/-- The display after the first `n` rows of a sprite at its origin, and whether one of them collided. -/
def spriteDrawn (s : State) (x y : Reg) (n : Nat) : List Byte × Bool :=
  drawnRows s (originX s x) (originY s y) (List.range n) s.bitgrid

/-- The state a draw of `n` rows leaves when it completes. -/
def afterDraw (s : State) (x y : Reg) (n : Nat) : State :=
  (s.setGrid (spriteDrawn s x y n).1).finishDraw (spriteDrawn s x y n).2

theorem exec_drw_completes {s : State} {n : Nat} (hv : s.vs = 0)
    (hrows : ∀ row, row < n → effectiveAddr s row < s.cfg.memSize) (x y : Reg) :
    exec (.drw x y n) s = .next (afterDraw s x y n) := by
  rcases execDrw_cases x y n s with ⟨hv', -⟩ | ⟨-, _, _, rfl, rfl, ⟨-, he⟩ | ⟨row, hlt, -, hbad, -⟩⟩
  · exact absurd hv hv'
  · exact he
  · exact absurd (hrows row hlt) (Nat.not_lt.2 hbad)

theorem exec_drw_stops {s : State} {n row : Nat} (hv : s.vs = 0) (hlt : row < n)
    (hrows : ∀ r, r < row → effectiveAddr s r < s.cfg.memSize)
    (hbad : s.cfg.memSize ≤ effectiveAddr s row) (x y : Reg) :
    exec (.drw x y n) s = .next ((s.setGrid (spriteDrawn s x y row).1).setRunState
      (.haltedOnFault (.outOfBounds (effectiveAddr s row)))) := by
  rcases execDrw_cases x y n s with
    ⟨hv', -⟩ | ⟨-, _, _, rfl, rfl, ⟨hall, -⟩ | ⟨row', hlt', hrows', hbad', he⟩⟩
  · exact absurd hv hv'
  · exact absurd (hall row hlt) (Nat.not_lt.2 hbad)
  · have hle : row' ≤ row := by
      by_contra hgt
      exact absurd (hrows' row (not_le.1 hgt)) (Nat.not_lt.2 hbad)
    have hge : row ≤ row' := by
      by_contra hgt
      exact absurd (hrows row' (not_le.1 hgt)) (Nat.not_lt.2 hbad')
    obtain rfl := Nat.le_antisymm hle hge
    exact he

/-- A pixel lies under a set bit of the sprite exactly when it lies on one of the rows and under a set bit
of that row. -/
theorem spriteOn_eq_rowLit (s : State) (px py n cx cy : Nat) :
    spriteOn s px py n cx cy =
      (decide (py ≤ cy ∧ cy - py ∈ List.range n) &&
        rowLit px cy (s.mem.read (s.index.toNat + (cy - py))) cx cy) := by
  have hrows : (px ≤ cx ∧ cx < px + 8 ∧ py ≤ cy ∧ cy < py + n) ↔
      (py ≤ cy ∧ cy - py ∈ List.range n) ∧ (cy = cy ∧ px ≤ cx ∧ cx < px + 8) := by
    rw [List.mem_range]
    omega
  rw [spriteOn, rowLit, ← Bool.and_assoc, ← Bool.decide_and, decide_eq_decide.2 hrows, effectiveAddr]

section

variable {s : State} (hlegal : GridLegal s) (x y : Reg) (n : Nat)
include hlegal

/-- The rows drawn toggle the pixels under the set bits of the sprite. -/
theorem getPixel_of_spriteDrawn {t : State} (hcfg : t.cfg = s.cfg)
    (hgrid : t.bitgrid = (spriteDrawn s x y n).1) {cx cy : Nat} (hx : cx < s.cfg.width)
    (hy : cy < s.cfg.height) :
    t.getPixel cx cy = (s.getPixel cx cy ^^ spriteOn s (originX s x) (originY s y) n cx cy) := by
  obtain ⟨hw, hg⟩ := hlegal
  obtain ⟨hpixel, -⟩ := drawnRows_spec hw (originX s x) (originY s y) _ (List.nodup_range (n := n)) hg
  rw [getPixel_of_lt (s := t) (hcfg ▸ hx) (hcfg ▸ hy), hcfg, hgrid, spriteDrawn, hpixel cx cy hx hy,
    getPixel_of_lt hx hy, spriteOn_eq_rowLit]

/-- The rows drawn collide exactly when the sprite hits. -/
theorem spriteDrawn_hit :
    (spriteDrawn s x y n).2 = true ↔ SpriteHits s (originX s x) (originY s y) n := by
  obtain ⟨hw, hg⟩ := hlegal
  obtain ⟨-, hhit⟩ := drawnRows_spec hw (originX s x) (originY s y) _ (List.nodup_range (n := n)) hg
  rw [spriteDrawn, hhit, SpriteHits]
  refine exists_congr fun cx => exists_congr fun cy =>
    and_congr_right fun hx => and_congr_right fun hy => ?_
  rw [getPixel_of_lt hx hy, spriteOn_eq_rowLit, Bool.and_eq_true, decide_eq_true_eq,
    and_assoc (c := gridPixel _ _ _ _ = true)]

end

section

variable {s : State} (hlegal : GridLegal s) (x y : Reg) (n : Nat)
include hlegal

theorem getPixel_afterDraw {cx cy : Nat} (hx : cx < s.cfg.width) (hy : cy < s.cfg.height) :
    (afterDraw s x y n).getPixel cx cy =
      (s.getPixel cx cy ^^ spriteOn s (originX s x) (originY s y) n cx cy) :=
  getPixel_of_spriteDrawn (t := afterDraw s x y n) hlegal x y n rfl rfl hx hy

theorem gridLegal_afterDraw : GridLegal (afterDraw s x y n) := by
  obtain ⟨hw, hg⟩ := hlegal
  have hlen : (spriteDrawn s x y n).1.length = s.bitgrid.length := drawnRows_length ..
  exact ⟨hw, hlen.trans hg⟩

omit hlegal in
theorem reg_VF_afterDraw : (afterDraw s x y n).reg VF = flagByte (spriteDrawn s x y n).2 := by
  rw [afterDraw, State.finishDraw_eq, State.setChanged_reg, State.setVS_reg, State.reg_setReg_same]

theorem reg_VF_afterDraw_of_hit (h : SpriteHits s (originX s x) (originY s y) n) :
    (afterDraw s x y n).reg VF = 1 := by
  rw [reg_VF_afterDraw, (spriteDrawn_hit hlegal x y n).2 h, flagByte_true]

theorem reg_VF_afterDraw_of_miss (h : ¬ SpriteHits s (originX s x) (originY s y) n) :
    (afterDraw s x y n).reg VF = 0 := by
  rw [reg_VF_afterDraw, Bool.eq_false_iff.2 (mt (spriteDrawn_hit hlegal x y n).1 h), flagByte_false]

end

/-- Settles O34. -/
theorem drawTogglesSprite : Obligations.DrawTogglesSprite := by
  intro x y n s hlegal hv hrows
  have hregs : SameRegsBut [VF] s (afterDraw s x y n) :=
    sameRegsBut_setReg (s := s.setGrid (spriteDrawn s x y n).1) (by simp) _
  exact ⟨_, exec_drw_completes hv hrows x y, fun _ _ => getPixel_afterDraw hlegal x y n,
    reg_VF_afterDraw_of_hit hlegal x y n, reg_VF_afterDraw_of_miss hlegal x y n, rfl, rfl,
    gridLegal_afterDraw hlegal x y n, hregs, rfl, rfl, ⟨rfl, rfl⟩, memRead_congr rfl rfl, rfl, rfl, rfl,
    ⟨rfl, rfl⟩, rfl, rfl⟩

/-- Settles O35. -/
theorem drawStopsAtBound : Obligations.DrawStopsAtBound := by
  intro x y n row s hlegal hv hlt hrows hbad
  exact ⟨_, exec_drw_stops hv hlt hrows hbad x y,
    fun cx cy hx hy => getPixel_of_spriteDrawn hlegal x y row (by rfl) (by rfl) hx hy, rfl,
    fun _ _ => rfl, rfl, rfl, ⟨rfl, rfl⟩, memRead_congr rfl rfl, ⟨rfl, rfl, rfl, rfl⟩, ⟨rfl, rfl⟩, rfl,
    rfl⟩

/-- The state of `RedrawRestoresPicture` in which the second draw begins. -/
def beforeRedraw (s : State) (x y : Reg) (n : Nat) : State :=
  { afterDraw s x y n with regs := s.regs, vsyncTimer := s.vsyncTimer }

/-- A sprite and its origin are read from the configuration, Memory, the index register and the general
registers. -/
theorem spriteOn_origin_congr {s t : State} (hcfg : t.cfg = s.cfg) (hmem : t.mem = s.mem)
    (hindex : t.index = s.index) (hregs : t.regs = s.regs) (x y : Reg) (n cx cy : Nat) :
    spriteOn t (originX t x) (originY t y) n cx cy =
      spriteOn s (originX s x) (originY s y) n cx cy := by
  have hx : originX t x = originX s x := by simp only [originX, State.reg, hregs, hcfg]
  have hy : originY t y = originY s y := by simp only [originY, State.reg, hregs, hcfg]
  simp only [spriteOn, hx, hy, effectiveAddr, hindex, hmem]

/-- The first draw wrote nothing that a sprite is read from. -/
theorem spriteOn_beforeRedraw (s : State) (x y : Reg) (n cx cy : Nat) :
    spriteOn (beforeRedraw s x y n) (originX (beforeRedraw s x y n) x)
      (originY (beforeRedraw s x y n) y) n cx cy =
    spriteOn s (originX s x) (originY s y) n cx cy :=
  spriteOn_origin_congr (s := s) (t := beforeRedraw s x y n) rfl rfl rfl rfl x y n cx cy

/-- Settles O36: the second draw toggles the pixels that the first did. -/
theorem redrawRestoresPicture : Obligations.RedrawRestoresPicture := by
  intro x y n s t hlegal hv hrows h
  obtain rfl := Host.Outcome.next.inj ((exec_drw_completes hv hrows x y).symm.trans h)
  have hlegal' : GridLegal (beforeRedraw s x y n) := gridLegal_afterDraw hlegal x y n
  have hpixel {cx cy : Nat} (hx : cx < s.cfg.width) (hy : cy < s.cfg.height) :
      (beforeRedraw s x y n).getPixel cx cy =
        (s.getPixel cx cy ^^ spriteOn s (originX s x) (originY s y) n cx cy) :=
    getPixel_afterDraw hlegal x y n hx hy
  refine ⟨_, exec_drw_completes (s := beforeRedraw s x y n) hv hrows x y, fun cx cy => ?_,
    fun hmiss hlit => ⟨reg_VF_afterDraw_of_miss hlegal x y n hmiss,
      reg_VF_afterDraw_of_hit hlegal' x y n ?_⟩⟩
  · by_cases hin : cx < s.cfg.width ∧ cy < s.cfg.height
    · rw [getPixel_afterDraw hlegal' x y n hin.1 hin.2, hpixel hin.1 hin.2, spriteOn_beforeRedraw,
        Bool.xor_assoc, Bool.xor_self, Bool.xor_false]
    · have hout : s.cfg.width ≤ cx ∨ s.cfg.height ≤ cy := by omega
      rw [getPixel_outside (s := s) hout]
      exact getPixel_outside (s := afterDraw (beforeRedraw s x y n) x y n) hout
  · obtain ⟨cx, cy, hx, hy, hon⟩ := hlit
    have hoff : s.getPixel cx cy = false := by
      rw [Bool.eq_false_iff]
      exact fun hpix => hmiss ⟨cx, cy, hx, hy, hon, hpix⟩
    have hon' := (spriteOn_beforeRedraw s x y n cx cy).trans hon
    exact ⟨cx, cy, hx, hy, hon', by rw [hpixel hx hy, hoff, hon, Bool.false_xor]⟩

end Sys2Proof.Machine

/-! ### The keyboard (R232 to R239) -/

namespace Sys2Proof.Machine

theorem exec_skp_key {x : Reg} {s : State} (h : (s.reg x).toNat < 16) :
    exec (.skp x) s = .next (s.skipIf (s.keys.getLsbD (s.reg x).toNat)) := by
  rcases keyOperand_cases (s.reg x) with ⟨-, hk⟩ | ⟨hbad, -⟩
  · simp only [exec, execSkp, hk, pressed_of_lt h]
  · omega

theorem exec_sknp_key {x : Reg} {s : State} (h : (s.reg x).toNat < 16) :
    exec (.sknp x) s = .next (s.skipIf (!s.keys.getLsbD (s.reg x).toNat)) := by
  rcases keyOperand_cases (s.reg x) with ⟨-, hk⟩ | ⟨hbad, -⟩
  · simp only [exec, execSknp, hk, pressed_of_lt h]
  · omega

/-- Both key skips raise the fault of their key operand. -/
theorem exec_keySkip_bad {x : Reg} {s : State} (h : 16 ≤ (s.reg x).toNat) :
    exec (.skp x) s = raise (.invalidKey (s.reg x).toNat) s ∧
    exec (.sknp x) s = raise (.invalidKey (s.reg x).toNat) s := by
  rcases keyOperand_cases (s.reg x) with ⟨hlt, -⟩ | ⟨-, hk⟩
  · omega
  · simp only [exec, execSkp, execSknp, hk, and_self]

/-- Settles O38. -/
theorem keySkips : Obligations.KeySkips := by
  intro x s
  refine ⟨fun hlt => ⟨?down, ?up⟩, fun hbad => exec_keySkip_bad hbad⟩
  case down =>
    rw [exec_skp_key hlt, s.skipIf_of_iff Iff.rfl]
  case up =>
    rw [exec_sknp_key hlt, State.skipIf_eq]
    cases s.keys.getLsbD (s.reg x).toNat <;> rfl

/-- FX0A with the latch clear and no key down rewinds (R237). -/
theorem exec_ldVxK_idle {x : Reg} {s : State} (hl : s.haltLatch = false) (hkeys : s.keys = 0) :
    exec (.ldVxK x) s = .next (s.setPc (s.pc - 2)) := by
  rcases execLdVxK_cases x s with ⟨-, -, he⟩ | ⟨k, -, hk, -⟩ | ⟨hset, -⟩ | ⟨hset, -⟩
  · exact he
  · simp [hkeys] at hk
  · simp [hl] at hset
  · simp [hl] at hset

/-- FX0A with the latch clear latches the lowest key down (R237, decision D17). -/
theorem exec_ldVxK_press {x k : Reg} {s : State} (hl : s.haltLatch = false)
    (hk : s.keys.getLsbD k.val = true) (hlow : ∀ j : Reg, j < k → s.keys.getLsbD j.val = false) :
    exec (.ldVxK x) s =
      .next (((s.setReg x (BitVec.ofNat 8 k.val)).setLatch true).setPc (s.pc - 2)) := by
  rcases execLdVxK_cases x s with ⟨-, hno, -⟩ | ⟨j, -, hj, hjlow, he⟩ | ⟨hset, -⟩ | ⟨hset, -⟩
  · cases (hno k).symm.trans hk
  · have hjk : ¬ j < k := fun hlt => by cases (hlow j hlt).symm.trans hj
    have hkj : ¬ k < j := fun hlt => by cases (hjlow k hlt).symm.trans hk
    obtain rfl := le_antisymm (not_lt.1 hkj) (not_lt.1 hjk)
    exact he
  · simp [hl] at hset
  · simp [hl] at hset

/-- FX0A with the latch set waits for the release of the key in its register (R237). -/
theorem exec_ldVxK_latched {x : Reg} {s : State} (hl : s.haltLatch = true)
    (hx : (s.reg x).toNat < 16) :
    exec (.ldVxK x) s =
      .next (if s.keys.getLsbD (s.reg x).toNat then s.setPc (s.pc - 2) else s.setLatch false) := by
  rcases execLdVxK_cases x s with ⟨hclear, -⟩ | ⟨_, hclear, -⟩ | ⟨-, hp, he⟩ | ⟨-, hp, he⟩
  · simp [hl] at hclear
  · simp [hl] at hclear
  · rw [pressed_of_lt hx] at hp
    rw [if_pos hp]
    exact he
  · rw [pressed_of_lt hx] at hp
    rw [if_neg (by simp [hp])]
    exact he

/-- Settles O39, phase by phase. -/
theorem keyWaitPhases : Obligations.KeyWaitPhases := by
  intro x s
  refine ⟨fun hl hkeys => exec_ldVxK_idle hl hkeys, fun k hl hk hlow => ?_, fun hl hx hdown => ?_,
    fun hl hx hup => ?_⟩
  · refine ⟨_, exec_ldVxK_press hl hk hlow, ?_, rfl, rfl,
      sameRegsBut_setReg List.mem_cons_self (BitVec.ofNat 8 k.val), rfl, ⟨rfl, rfl⟩,
      memRead_congr rfl rfl, ⟨rfl, rfl, rfl, rfl⟩, ⟨rfl, rfl⟩, rfl, rfl, rfl⟩
    have hk16 := k.isLt
    rw [State.setPc_reg, State.setLatch_reg, State.reg_setReg_same, BitVec.toNat_ofNat]
    omega
  · rw [exec_ldVxK_latched hl hx, if_pos hdown]
    rfl
  · rw [exec_ldVxK_latched hl hx, if_neg (by simp [hup])]
    rfl

/-- A machine that a step leaves as it is, and that has not faulted, runs safely for ever. -/
theorem safeRun_of_step_self {s : State} (hu : s.unfaulted = true) (h : step s = .next s) :
    ∀ k, SafeRun k s
  | 0 => hu
  | k + 1 => ⟨hu, s, h, safeRun_of_step_self hu h k⟩

/-- Settles O40: the step is the identity. -/
theorem keyWaitWithoutKeysIsSafe : Obligations.KeyWaitWithoutKeysIsSafe := by
  intro k x w s hr hf hd hl hkeys
  have hstep : step s = .next s := step_self_of_rewind hr hf hd (exec_ldVxK_idle hl hkeys)
  have hunfaulted : s.unfaulted = true := by rw [State.unfaulted, hr]
  exact ⟨safeRun_of_step_self hunfaulted hstep k, runBatch_of_step_self hstep k⟩

end Sys2Proof.Machine

/-! ### Timers that an instruction does not read (R29, R219 (6), R253) -/

namespace Sys2Proof.Machine

/-- The state with its sound and vsync timers replaced. -/
def State.withTimers (sound vsync : Timer) (s : State) : State :=
  { s with soundTimer := sound, vsyncTimer := vsync }

/-- The result with those timers replaced in its next state. -/
def replaceTimers (sound vsync : Timer) : Result → Result
  | .next t => .next (t.withTimers sound vsync)
  | .fault f => .fault f
  | .refused r => .refused r

section

variable (sound vsync : Timer)

theorem memWrite_withTimers (a : Nat) (b : Byte) (s : State) :
    memWrite a b (s.withTimers sound vsync) =
      (memWrite a b s).map (State.withTimers sound vsync) := by
  rcases memWrite_cases a b s with ⟨hlt, hw⟩ | ⟨hle, hw⟩
  · rw [hw, memWrite_ok (s := s.withTimers sound vsync) hlt]
    rfl
  · rw [hw, memWrite_error (s := s.withTimers sound vsync) hle]
    rfl

theorem memRead_withTimers (a : Nat) (s : State) :
    memRead a (s.withTimers sound vsync) = memRead a s := memRead_congr rfl rfl a

theorem storeAt_withTimers (a : Nat) (bs : List Byte) (s : State) :
    storeAt a bs (s.withTimers sound vsync) = replaceTimers sound vsync (storeAt a bs s) := by
  induction bs generalizing a s with
  | nil => rfl
  | cons b bs ih =>
    rw [storeAt, storeAt, memWrite_withTimers]
    cases memWrite a b s with
    | error f => rfl
    | ok t => exact ih (a + 1) t

theorem storeMany_withTimers (rs : List Reg) (s : State) :
    storeMany rs (s.withTimers sound vsync) = replaceTimers sound vsync (storeMany rs s) := by
  induction rs generalizing s with
  | nil => rfl
  | cons r rs ih =>
    have hindex : (s.withTimers sound vsync).index = s.index := rfl
    have hreg : (s.withTimers sound vsync).reg r = s.reg r := rfl
    rw [storeMany, storeMany, hindex, hreg, memWrite_withTimers]
    cases memWrite s.index.toNat (s.reg r) s with
    | error f => rfl
    | ok t => exact ih (t.setIndex (t.index + 1))

theorem loadMany_withTimers (rs : List Reg) (s : State) :
    loadMany rs (s.withTimers sound vsync) = replaceTimers sound vsync (loadMany rs s) := by
  induction rs generalizing s with
  | nil => rfl
  | cons r rs ih =>
    have hindex : (s.withTimers sound vsync).index = s.index := rfl
    rw [loadMany, loadMany, memRead_withTimers, hindex]
    cases memRead s.index.toNat s with
    | error f => rfl
    | ok b => exact ih ((s.setReg r b).setIndex (s.index + 1))

theorem skipIf_withTimers (c : Bool) (s : State) :
    (s.withTimers sound vsync).skipIf c = (s.skipIf c).withTimers sound vsync := by
  cases c <;> rfl

/-- The form in which an instruction with several outcomes is shown to run alike. -/
theorem exec_withTimers_of_next {i : Instr} {s t : State} (h : exec i s = .next t)
    (h' : exec i (s.withTimers sound vsync) = .next (t.withTimers sound vsync)) :
    exec i (s.withTimers sound vsync) = replaceTimers sound vsync (exec i s) := by
  rw [h, h']
  rfl

/-- FX0A looks at the keys, the latch and its register. -/
theorem exec_ldVxK_withTimers (x : Reg) (s : State) :
    exec (.ldVxK x) (s.withTimers sound vsync) =
      replaceTimers sound vsync (exec (.ldVxK x) s) := by
  have hlatch : (s.withTimers sound vsync).haltLatch = s.haltLatch := rfl
  have hpressed : pressed ((s.withTimers sound vsync).reg x).toNat (s.withTimers sound vsync) =
      pressed (s.reg x).toNat s := rfl
  have hfirst : firstPressed (s.withTimers sound vsync) = firstPressed s := rfl
  simp only [exec, execLdVxK, hlatch, hpressed, hfirst]
  cases s.haltLatch with
  | true => cases pressed (s.reg x).toNat s <;> rfl
  | false => cases firstPressed s <;> rfl

/-- An instruction that neither loads the sound timer nor draws runs alike whatever these timers hold. -/
theorem exec_withTimers {i : Instr} (hload : ∀ x, i ≠ .ldStVx x) (hdraw : ∀ x y n, i ≠ .drw x y n)
    (s : State) :
    exec i (s.withTimers sound vsync) = replaceTimers sound vsync (exec i s) := by
  have of_next {t : State} := exec_withTimers_of_next sound vsync (i := i) (s := s) (t := t)
  cases i
  case ldStVx x => exact absurd rfl (hload x)
  case drw x y n => exact absurd rfl (hdraw x y n)
  case ret =>
    rcases Nat.eq_zero_or_pos s.sp.val with h | h
    · exact of_next (execRet_empty h) (execRet_empty (s := s.withTimers sound vsync) h)
    · exact of_next (execRet_entry h) (execRet_entry (s := s.withTimers sound vsync) h)
  case jp nnn =>
    obtain ⟨hjump, hself⟩ := jumpHaltsOnItself nnn s
    obtain ⟨hjump', hself'⟩ := jumpHaltsOnItself nnn (s.withTimers sound vsync)
    by_cases h : nnn = s.pc - 2
    · exact of_next (hself h) (hself' h)
    · exact of_next (hjump h) (hjump' h)
  case call nnn =>
    rcases Nat.lt_or_ge s.sp.val 16 with h | h
    · exact of_next (execCall_room h nnn) (execCall_room (s := s.withTimers sound vsync) h nnn)
    · have hfull : s.sp.val = 16 := by omega
      exact of_next (execCall_full hfull nnn)
        (execCall_full (s := s.withTimers sound vsync) hfull nnn)
  case seImm | sneImm | seReg | sneReg =>
    exact congrArg Host.Outcome.next (skipIf_withTimers sound vsync _ s)
  case skp x =>
    rcases Nat.lt_or_ge (s.reg x).toNat 16 with h | h
    · rw [exec_skp_key h, exec_skp_key (s := s.withTimers sound vsync) h]
      exact congrArg Host.Outcome.next (skipIf_withTimers sound vsync _ s)
    · exact of_next (exec_keySkip_bad h).1 (exec_keySkip_bad (s := s.withTimers sound vsync) h).1
  case sknp x =>
    rcases Nat.lt_or_ge (s.reg x).toNat 16 with h | h
    · rw [exec_sknp_key h, exec_sknp_key (s := s.withTimers sound vsync) h]
      exact congrArg Host.Outcome.next (skipIf_withTimers sound vsync _ s)
    · exact of_next (exec_keySkip_bad h).2 (exec_keySkip_bad (s := s.withTimers sound vsync) h).2
  case ldVxK x => exact exec_ldVxK_withTimers sound vsync x s
  case ldB x => exact storeAt_withTimers sound vsync _ _ s
  case storeRegs x => exact storeMany_withTimers sound vsync (regsUpTo x) s
  case loadRegs x => exact loadMany_withTimers sound vsync (regsUpTo x) s
  -- the other meanings name the parts of the state that they read
  all_goals rfl

end

/-- A draw does not look at the sound timer. -/
theorem exec_drw_soundTimer {x y : Reg} {n : Nat} {s t : State} (h : exec (.drw x y n) s = .next t)
    (other : Timer) :
    exec (.drw x y n) { s with soundTimer := other } = .next { t with soundTimer := other } := by
  have hdrawn (m : Nat) : spriteDrawn { s with soundTimer := other } x y m = spriteDrawn s x y m :=
    drawnRows_congr (s := s) (t := { s with soundTimer := other }) rfl rfl rfl _ _ _ _
  rcases execDrw_cases x y n s with
    ⟨hv, he⟩ | ⟨hv, _, _, -, -, ⟨hrows, -⟩ | ⟨row, hlt, hrows, hbad, -⟩⟩
  · obtain rfl := Host.Outcome.next.inj (he.symm.trans h)
    exact exec_drw_gated (s := { s with soundTimer := other }) hv x y n
  · obtain rfl := Host.Outcome.next.inj ((exec_drw_completes hv hrows x y).symm.trans h)
    rw [exec_drw_completes (s := { s with soundTimer := other }) hv hrows x y, afterDraw, hdrawn]
    rfl
  · obtain rfl := Host.Outcome.next.inj ((exec_drw_stops hv hlt hrows hbad x y).symm.trans h)
    rw [exec_drw_stops (s := { s with soundTimer := other }) hv hlt hrows hbad x y, hdrawn]
    rfl

/-- Settles O60: FX18 and DXYN apart, both timers may be replaced before the instruction as well as after
it; FX18 overwrites the value of the sound timer, and DXYN keeps that timer. -/
theorem timersAreNotReadByOthers : Obligations.TimersAreNotReadByOthers := by
  intro i s t other h
  have heff := exec_effect h
  constructor
  · by_cases hload : ∃ x, i = .ldStVx x
    · obtain ⟨x, rfl⟩ := hload
      cases h
      exact ⟨other.set (s.reg x), rfl⟩
    by_cases hdraw : ∃ x y n, i = .drw x y n
    · obtain ⟨x, y, n, rfl⟩ := hdraw
      exact ⟨other, exec_drw_soundTimer h other⟩
    · push Not at hload hdraw
      refine ⟨other, (exec_withTimers other s.vsyncTimer hload hdraw s).trans ?_⟩
      rw [h, ← heff.vsyncTimer_eq (.inl hdraw)]
      rfl
  · intro hdraw
    by_cases hload : ∃ x, i = .ldStVx x
    · obtain ⟨x, rfl⟩ := hload
      cases h
      rfl
    · push Not at hload
      refine (exec_withTimers s.soundTimer other hload hdraw s).trans ?_
      rw [h, ← heff.soundTimer_eq hload]
      rfl

end Sys2Proof.Machine
